-- ==== Sys2Proof/Word.lean ====
section
/-! DEFINITION. The two word types of the block (00_scope.md R5, R6): a 16-bit unsigned word, which is the unit of the
heap, of a register, of a stack entry and of an instruction, and a byte of the two streams. -/

namespace Sys2Proof

/-- "Word: 16-bit unsigned integer" (R5, R6). -/
abbrev Word := BitVec 16

/-- One byte of the output sink or the input source (R36). -/
abbrev Byte := BitVec 8

end Sys2Proof
end

