-- ==== Sys2Proof/Config.lean ====
section
/-! DEFINITION. What is fixed for one machine and is not state: the one open parameter of the architecture and the free
values. Every size is fixed by 00_scope.md R5 (8 registers, 32768 heap words, modulus 32768, REG_BASE 32768,
22 opcodes, unbounded stack) and is written where it is used. -/

namespace Sys2Proof

/-- `JT_EAGER_TARGET` of 00_scope.md R5, default false: whether `JT` and `JF` resolve their target operand when the jump
is not taken (44_jump.md R121, R122; 93 U6). The shared operation takes it as an argument, so that claims can be made
for both readings. UNVERIFIED, log entry 10, unsafe. -/
def Config.jtEagerTarget : Bool := false

/-- The program counter in `Faulted` "is not specified" (60_exceptions.md R161). A free value: it has no body, and it is
applied to the counter `State.free`, so that two faults need not leave the same one. Log entry 3, safe. -/
opaque Config.freePc : Nat → Word

/-- How many leading words of an image that does not fit were copied before the load fault: "the first 32768 words may
or may not have been copied" (70_reset_and_hazards.md R183). A free value, applied to `State.free`. Log entry 9, safe. -/
opaque Config.loadKept : Nat → Nat

end Sys2Proof
end

