-- ==== Sys2Proof/Syntax.lean ====
section
/-! DEFINITION. The 22 instructions (30_encoding.md R76), one constructor for each row of spec/opcode_table.json. "a tagged
union, one variant per opcode, each carrying exactly the raw operand words its opcode requires" (R70): an operand is
the raw word, since its role is resolved when the effect runs and not at decode (R79). -/

namespace Sys2Proof

/-- The instructions in the order of the opcode map (R76). Operands are written `a`, `b`, `c` in encoding order. -/
inductive Instr where
  /-- `HALT`, R100. -/
  | halt
  /-- `SET a, b`, R105. -/
  | set (a b : Word)
  /-- `PUSH a`, R110. -/
  | push (a : Word)
  /-- `POP a`, R111. -/
  | pop (a : Word)
  /-- `EQ a, b, c`, R115. -/
  | eq (a b c : Word)
  /-- `GT a, b, c`, R116. -/
  | gt (a b c : Word)
  /-- `JMP a`, R120. -/
  | jmp (a : Word)
  /-- `JT a, b`, R121. -/
  | jt (a b : Word)
  /-- `JF a, b`, R122. -/
  | jf (a b : Word)
  /-- `ADD a, b, c`, R125. -/
  | add (a b c : Word)
  /-- `MULT a, b, c`, R126. -/
  | mult (a b c : Word)
  /-- `MOD a, b, c`, R127. -/
  | mod (a b c : Word)
  /-- `AND a, b, c`, R130. -/
  | and (a b c : Word)
  /-- `OR a, b, c`, R131. -/
  | or (a b c : Word)
  /-- `NOT a, b`, R132. -/
  | not (a b : Word)
  /-- `RMEM a, b`, R135. -/
  | rmem (a b : Word)
  /-- `WMEM a, b`, R136. -/
  | wmem (a b : Word)
  /-- `CALL a`, R140. -/
  | call (a : Word)
  /-- `RET`, R141. -/
  | ret
  /-- `OUT a`, R145. -/
  | out (a : Word)
  /-- `IN a`, R146 (`in` is a word of Lean's own). -/
  | inb (a : Word)
  /-- `NOOP`, R101. -/
  | noop
  deriving DecidableEq, Repr

end Sys2Proof
end

