-- ==== Sys2Proof/Machine/State.lean ====
section
/-! DEFINITION. The whole architectural state (10_state.md R20) as plain data, the state after reset (70 R180), and the names
of what stops a step. -/

namespace Sys2Proof.Machine

/-- The run state (10_state.md R30). -/
inductive RunState where
  /-- After reset; the host may load and start. -/
  | ready
  /-- The block repeats the step of R33. -/
  | running
  /-- Terminal: a clean end (R42). -/
  | halted
  /-- Terminal: "carries the triggering error", which is in the fault record. -/
  | faulted
  deriving DecidableEq, Repr

/-- The fault kinds in the order of their codes 0 to 9 (60_exceptions.md R151). -/
inductive FaultKind where
  | noFault
  /-- Raised by the Loader only, never recorded by the block (R164). -/
  | malformedImage
  | unknownOpcode
  | addressOutOfBounds
  /-- The register file's own check, unreachable from any program (R24, R165). -/
  | registerIndexOutOfBounds
  | notARegister
  | invalidOperand
  | stackUnderflow
  | divisionByZero
  | inputExhausted
  deriving DecidableEq, Repr

/-- A fault that an operation raises, `raise F(info)` of 00_scope.md R7, before it is taken: each kind with the
information word it carries (10_state.md R32). -/
inductive Trap where
  /-- `UnknownOpcode(op)`, with the opcode word. -/
  | unknownOpcode (op : Word)
  /-- `AddressOutOfBounds(addr)`, with the offending address. -/
  | addressOutOfBounds (addr : Word)
  /-- `RegisterIndexOutOfBounds`. -/
  | registerIndexOutOfBounds
  /-- `NotARegister(w)`, with the operand word. -/
  | notARegister (w : Word)
  /-- `InvalidOperand(w)`, with the operand word. -/
  | invalidOperand (w : Word)
  /-- `StackUnderflow`. -/
  | stackUnderflow
  /-- `DivisionByZero`. -/
  | divisionByZero
  /-- `InputExhausted`. -/
  | inputExhausted
  deriving DecidableEq, Repr

/-- The fault record (10_state.md R32). `kind` is 4 bits at the status port (`FaultKind.code`). -/
structure FaultRecord where
  kind : FaultKind
  addr : Word
  info : Word
  deriving DecidableEq, Repr

/-- "In any state other than `Faulted` the record reads kind 0" (R32), with 0 in its other fields (R180). -/
def FaultRecord.clear : FaultRecord := { kind := .noFault, addr := 0, info := 0 }

/-- The heap (R34): the cells whose word is not 0, as pairs of a word address and a word in rising order of address. Every
unlisted cell reads 0 (`Memory.unlisted`). DESIGN CHOICE of form only, log entry 1, safe. -/
abbrev Memory := List (Nat × Word)

/-- What an unlisted cell reads as: the heap is "zero-initialized" (R34, R180). -/
def Memory.unlisted : Word := 0

/-- The state of the block and its two streams (R20). -/
structure State where
  /-- General registers `r0` to `r7` (R21). -/
  x : Vector Word 8
  /-- The program counter (R25). -/
  pc : Word
  /-- The run state (R30). -/
  runstate : RunState
  /-- The fault record (R32). -/
  fault : FaultRecord
  /-- The heap, 32768 cells (R34). -/
  heap : Memory
  /-- The stack, top first, unbounded (R35). -/
  stack : List Word
  /-- The output history, oldest byte first (R36). -/
  out : List Byte
  /-- Input bytes the host has given and no `IN` has taken, next byte first (R36). -/
  inp : List Byte
  /-- Whether the host has signalled end of stream after `inp` (R36, R148). -/
  inpEnded : Bool
  /-- Whether the image has been loaded since reset: `load` is allowed "in `Ready`, once" (R41; log entry 7). No
  instruction reads or writes it. -/
  imageLoaded : Bool
  /-- The model's own: how many free values have been drawn (log entry 3). -/
  free : Nat
  deriving DecidableEq, Repr

/-- The state after reset, before the image is loaded (10_state.md R40, 70 R180). `inp` and `inpEnded` are the host's
(log entry 6, DESIGN CHOICE, unsafe; `hostReset` takes whatever the host gives); no image is loaded yet (log entry 7);
`free` is the model's own (log entry 3). -/
def State.reset : State where
  x := Vector.replicate 8 0
  pc := 0
  runstate := .ready
  fault := .clear
  heap := []
  stack := []
  out := []
  inp := []
  inpEnded := false
  imageLoaded := false
  free := 0

/-- Why no step exists. These are not the faults of 60_exceptions.md, whose entry is a next state with the run state
`Faulted` (log entry 2); they are the stuck states of 10_state.md R33, "require runstate = Running -- otherwise no step
exists", and its step of an `IN` that "exists only once" the host has answered (log entries 4 and 5). -/
inductive Fault where
  /-- Raised by `step` in `Ready`: the host has not started the run (R31). Safe: the block executes nothing there. -/
  | noStepReady
  /-- Raised by `step` in `Halted`: "No transition leaves `Halted`" (R30). Safe: the block takes no step there. -/
  | noStepHalted
  /-- Raised by the meaning of `IN`, and so by `step` in `Running`, while the host has answered neither a byte nor the
  end of the stream: the step "exists only once the input source has a byte or has signalled end of stream" (R33; 49_io.md
  R148, 93 U14). Safe: the block holds with its state unchanged until the host answers. -/
  | noStepAwaitingInput
  /-- Raised by `step` in `Faulted`: no step exists after a fault (R162, 93 U1). Safe: the block takes no step there. -/
  | noStepFaulted
  deriving DecidableEq, Repr

/-- Why an instruction has no meaning in the model. -/
inductive Refusal where
  /-- Raised by an arm of `exec` whose instruction has no meaning yet; no arm does. Safe: the model stops. -/
  | notModelled (mnemonic : String)
  deriving DecidableEq, Repr

/-- What a step or a meaning answers. -/
abbrev Outcome := Host.Outcome State Fault Refusal

end Sys2Proof.Machine
end

