-- ==== Sys2Proof/Machine/Ops.lean ====
section
/-! DEFINITION. The named operations over the heap, the register file, the stack, the streams and the program counter
(00_scope.md R7), and TAKING A FAULT as one shared operation (60_exceptions.md R160). -/

namespace Sys2Proof.Machine

/-! ### The heap -/

/-- The word of cell `a`. -/
def Memory.read (m : Memory) (a : Nat) : Word :=
  match m with
  | [] => Memory.unlisted
  | (b, w) :: rest => if a = b then w else Memory.read rest a

/-- Put a cell before the first cell of a higher address. -/
def Memory.insert (a : Nat) (v : Word) (m : Memory) : Memory :=
  match m with
  | [] => [(a, v)]
  | (b, w) :: rest => if a < b then (a, v) :: (b, w) :: rest else (b, w) :: Memory.insert a v rest

/-- Write cell `a`; writing the word an unlisted cell reads as removes the entry. -/
def Memory.write (m : Memory) (a : Nat) (v : Word) : Memory :=
  let others := m.filter fun cell => cell.1 != a
  if v = Memory.unlisted then others else Memory.insert a v others

/-- The cells are addresses of the heap from `lo` on, strictly rising, and none reads as an unlisted cell does. -/
def Memory.wfFrom (lo : Nat) (m : Memory) : Bool :=
  match m with
  | [] => true
  | (a, v) :: rest => lo ≤ a && a < 32768 && v != Memory.unlisted && Memory.wfFrom (a + 1) rest

/-- The canonical form of a heap: equal heaps are equal lists. -/
def Memory.wf (m : Memory) : Bool := Memory.wfFrom 0 m

/-- The heap address translator (20_memory.md R57, R55, R56): the cell index of an address word, or
`AddressOutOfBounds(addr)`. It serves the instruction fetch, `RMEM`, `WMEM` and the image load. -/
def translateAddr (addr : Word) : Except Trap Nat :=
  if addr.toNat < 32768 then .ok addr.toNat else .error (.addressOutOfBounds addr)

/-- `MemRead(addr, 1)` (R55). -/
def memRead (addr : Word) (m : Memory) : Except Trap Word := do
  let a ← translateAddr addr
  .ok (m.read a)

/-- `MemWrite(addr, 1, v)` (R56). -/
def memWrite (addr : Word) (v : Word) (m : Memory) : Except Trap Memory := do
  let a ← translateAddr addr
  .ok (m.write a v)

/-! ### The register file -/

/-- Register `i` (R21). -/
def State.reg (s : State) (i : Fin 8) : Word := s.x[i]

/-- Put all 16 bits of `v` in register `i` (R22: "Nothing masks a value on its way into a register"). -/
def State.setReg (i : Fin 8) (v : Word) (s : State) : State := { s with x := s.x.set i v }

/-- `read_register(idx)` with the register file's own check (R24). -/
def readRegister (idx : Nat) (s : State) : Except Trap Word :=
  if h : idx < 8 then .ok (s.reg ⟨idx, h⟩) else .error .registerIndexOutOfBounds

/-- `write_register(idx, value)` with the register file's own check (R24). -/
def writeRegister (idx : Nat) (v : Word) (s : State) : Except Trap State :=
  if h : idx < 8 then .ok (s.setReg ⟨idx, h⟩ v) else .error .registerIndexOutOfBounds

/-! ### The program counter -/

/-- The post-decode address: the counter moved past the `n` words of an instruction (R25, R26). -/
def State.advance (n : Nat) (s : State) : State := { s with pc := s.pc + BitVec.ofNat 16 n }

/-- A control transfer assigns the counter, "never an offset added on top of the decode advance" (R28); any 16-bit target
is taken, and one of 32768 or more faults at the next fetch (R29; log entry 16). -/
def State.jumpTo (t : Word) (s : State) : State := { s with pc := t }

/-! ### The stack controller -/

/-- `push(v)`: `v` becomes the new top; never fails (42_stack.md R112; unbounded, log entry 15). -/
def pushWord (v : Word) (s : State) : State := { s with stack := v :: s.stack }

/-- `pop()`: take the top, or `StackUnderflow` when the stack is empty (R112). -/
def popWord (s : State) : Except Trap (Word × State) :=
  match s.stack with
  | [] => .error .stackUnderflow
  | v :: rest => .ok (v, { s with stack := rest })

/-! ### The streams -/

/-- `emit(b)`: append one byte to the output history (49_io.md R147). -/
def emit (b : Byte) (s : State) : State := { s with out := s.out ++ [b] }

/-- `next_input()` (49_io.md R148): the next byte, taken from `inp`; `InputExhausted` at end of stream; and `none` while
the host has answered neither a byte nor the end. -/
def nextInput (s : State) : Option (Except Trap (Byte × State)) :=
  match s.inp with
  | b :: rest => some (.ok (b, { s with inp := rest }))
  | [] => if s.inpEnded then some (.error .inputExhausted) else none

/-! ### Ending a run -/

/-- `runstate <- Halted` (R30): a clean end. -/
def State.halt (s : State) : State := { s with runstate := .halted }

/-- The kind a raised fault is recorded as (60_exceptions.md R151). -/
def Trap.kind : Trap → FaultKind
  | .unknownOpcode _ => .unknownOpcode
  | .addressOutOfBounds _ => .addressOutOfBounds
  | .registerIndexOutOfBounds => .registerIndexOutOfBounds
  | .notARegister _ => .notARegister
  | .invalidOperand _ => .invalidOperand
  | .stackUnderflow => .stackUnderflow
  | .divisionByZero => .divisionByZero
  | .inputExhausted => .inputExhausted

/-- The information word a raised fault is recorded with, 0 when its kind has none (R151, column `fault.info`). -/
def Trap.info : Trap → Word
  | .unknownOpcode op => op
  | .addressOutOfBounds addr => addr
  | .registerIndexOutOfBounds => 0
  | .notARegister w => w
  | .invalidOperand w => w
  | .stackUnderflow => 0
  | .divisionByZero => 0
  | .inputExhausted => 0

/-- The 4-bit cause code of a kind (R151; the numbers are the spec's decision D17, log entry 13). -/
def FaultKind.code : FaultKind → BitVec 4
  | .noFault => 0
  | .malformedImage => 1
  | .unknownOpcode => 2
  | .addressOutOfBounds => 3
  | .registerIndexOutOfBounds => 4
  | .notARegister => 5
  | .invalidOperand => 6
  | .stackUnderflow => 7
  | .divisionByZero => 8
  | .inputExhausted => 9

/-- Fault entry (60_exceptions.md R160) with the address the record names. Registers, heap, stack and streams stay; the
program counter "is not specified" (R161) and takes the next free value (log entry 3). -/
def takeFaultAt (addr : Word) (t : Trap) (s : State) : State :=
  { s with
    fault := { kind := t.kind, addr := addr, info := t.info }
    runstate := .faulted
    pc := Config.freePc s.free
    free := s.free + 1 }

/-- Fault entry of an instruction's step: `s` is the state in which the step began, so its `pc` is the `A` of R160. There
is no return from it (R162): only a reset leaves `Faulted`. -/
def takeFault (t : Trap) (s : State) : State := takeFaultAt s.pc t s

/-- How a step that began in `s` ends: with all the writes of its effect, or with the fault the effect raised and none of
its writes (R33, R160). -/
def conclude (s : State) (r : Except Trap State) : Outcome :=
  match r with
  | .ok t => .next t
  | .error t => .next (takeFault t s)

end Sys2Proof.Machine
end

