-- ==== Sys2Proof/Machine/Operands.lean ====
section
/-! DEFINITION. Operand words and the two ways one is resolved (30_encoding.md R72 to R75), and the shapes of effect that
several instructions share. Every effect resolves the destination first, then the values in encoding order, then makes
the operation's own test, and only then writes (60_exceptions.md R156; the order is the spec's decision D5, log entry
12). Reads are of the state before the step, so a register may be source and destination (70 R186). -/

namespace Sys2Proof.Machine

/-- The three classes of operand word (R73). -/
inductive OperandKind where
  | literal
  | register
  | invalid
  deriving DecidableEq, Repr

/-- `kind(w)`, "determined purely by numeric range" (R73). -/
def kind (w : Word) : OperandKind :=
  if w.toNat ≤ 32767 then .literal else if w.toNat ≤ 32775 then .register else .invalid

/-- `val(w)`, the value role (R74): a literal is itself, a register word is that register's content, one level only. -/
def val (w : Word) (s : State) : Except Trap Word :=
  match kind w with
  | .literal => .ok w
  | .register => readRegister (w.toNat - 32768) s
  | .invalid => .error (.invalidOperand w)

/-- `dst(w)`, the destination role (R75): the register index. A literal is no heap address (20_memory.md R51), and an
invalid word raises `NotARegister` too. -/
def dst (w : Word) : Except Trap Nat :=
  match kind w with
  | .register => .ok (w.toNat - 32768)
  | .literal => .error (.notARegister w)
  | .invalid => .error (.notARegister w)

/-- The effect `x[dst a] <- f (val b)` of an instruction of three words. -/
def unaryEffect (f : Word → Except Trap Word) (a b : Word) (s : State) : Except Trap State := do
  let i ← dst a
  let vb ← val b s
  let v ← f vb
  writeRegister i v (s.advance 3)

/-- The effect `x[dst a] <- f (val b) (val c)` of an instruction of four words. -/
def binaryEffect (f : Word → Word → Except Trap Word) (a b c : Word) (s : State) : Except Trap State := do
  let i ← dst a
  let vb ← val b s
  let vc ← val c s
  let v ← f vb vc
  writeRegister i v (s.advance 4)

end Sys2Proof.Machine
end

