-- ==== Sys2Proof/Machine/Flags.lean ====
section
/-! DEFINITION. There are no flags and no condition codes (10_state.md R37). What the ALU's conditional logic computes in
their place: the 0 or 1 that `EQ` and `GT` write into a general register, and the zero test of `JT` and `JF`. -/

namespace Sys2Proof.Machine

/-- A truth value as the word 1 or 0 (43_compare.md). -/
def truthWord (p : Bool) : Word := if p then 1 else 0

/-- `EQ`: all 16 bits of both values, nothing reduced before the comparison (R115). -/
def compareEq (vb vc : Word) : Word := truthWord (vb == vc)

/-- `GT`: unsigned, the first value against the second (R116). -/
def compareGt (vb vc : Word) : Word := truthWord (vc.toNat < vb.toNat)

/-- The test of `JT`: any of the 65535 nonzero values (R121). -/
def isNonzero (v : Word) : Bool := v != 0

/-- The test of `JF` (R122). -/
def isZero (v : Word) : Bool := v == 0

end Sys2Proof.Machine
end

