-- ==== Sys2Proof/Machine/Arith.lean ====
section
/-! DEFINITION. `ADD`, `MULT` and `MOD` (45_arith.md). Operands are natural numbers 0..65535, the operation is exact, and the
result is reduced modulo 32768 (R128). -/

namespace Sys2Proof.Machine

/-- A natural number reduced modulo 32768, as a word in 0..32767 (R128). -/
def reduce (n : Nat) : Word := BitVec.ofNat 16 (n % 32768)

/-- `(vb + vc) mod 32768` on the exact sum (R125). -/
def aluAdd (vb vc : Word) : Word := reduce (vb.toNat + vc.toNat)

/-- `(vb * vc) mod 32768` on the exact product, "a widening intermediate" (R126). -/
def aluMult (vb vc : Word) : Word := reduce (vb.toNat * vc.toNat)

/-- `(vb mod vc) mod 32768`, or `DivisionByZero` (R127; the outer reduction is the spec's decision D4, log entry 11). -/
def aluMod (vb vc : Word) : Except Trap Word :=
  if vc = 0 then .error .divisionByZero else .ok (reduce (vb.toNat % vc.toNat))

/-- `ADD a, b, c` (R125). -/
def execAdd (a b c : Word) (s : State) : Outcome :=
  conclude s (binaryEffect (fun vb vc => .ok (aluAdd vb vc)) a b c s)

/-- `MULT a, b, c` (R126). -/
def execMult (a b c : Word) (s : State) : Outcome :=
  conclude s (binaryEffect (fun vb vc => .ok (aluMult vb vc)) a b c s)

/-- `MOD a, b, c` (R127). -/
def execMod (a b c : Word) (s : State) : Outcome := conclude s (binaryEffect aluMod a b c s)

end Sys2Proof.Machine
end

