-- ==== Sys2Proof/Machine/ByteIO.lean ====
section
/-! DEFINITION. `OUT` and `IN` (49_io.md). -/

namespace Sys2Proof.Machine

/-- The byte `OUT` emits, `v[7:0]` (R145; one byte, untranslated, log entry 19). -/
def lowByte (v : Word) : Byte := v.setWidth 8

/-- `zext_16(b)`, the word `IN` writes (R146, R7). -/
def zeroExtend16 (b : Byte) : Word := b.setWidth 16

/-- The effect of `OUT` (R145). -/
def outEffect (a : Word) (s : State) : Except Trap State := do
  let v ← val a s
  .ok (emit (lowByte v) (s.advance 2))

/-- `OUT a` (R145). -/
def execOut (a : Word) (s : State) : Outcome := conclude s (outEffect a s)

/-- `IN a` (R146). The destination is tested first, without waiting and without taking a byte. While the host has answered
neither a byte nor the end, the step does not exist and "the block holds in `Running` with its state unchanged" (R33,
R148, 60 R172): no next state, the stop `noStepAwaitingInput` (log entry 5). The host's answer lifts it. -/
def execInb (a : Word) (s : State) : Outcome :=
  match dst a with
  | .error e => conclude s (.error e)
  | .ok i =>
    match nextInput s with
    | none => .fault .noStepAwaitingInput
    | some (.error e) => conclude s (.error e)
    | some (.ok (b, t)) => conclude s (writeRegister i (zeroExtend16 b) (t.advance 2))

end Sys2Proof.Machine
end

