-- ==== Sys2Proof/Machine/CallRet.lean ====
section
/-! DEFINITION. `CALL` and `RET` (48_call_ret.md). -/

namespace Sys2Proof.Machine

/-- The effect of `CALL` (R140): the target is resolved before the push, so a fault leaves the stack as it was; the word
pushed is the post-decode address `A + 2`. -/
def callEffect (a : Word) (s : State) : Except Trap State := do
  let t ← val a s
  let past := s.advance 2
  .ok ((pushWord past.pc past).jumpTo t)

/-- `CALL a` (R140). -/
def execCall (a : Word) (s : State) : Outcome := conclude s (callEffect a s)

/-- `RET` (R141): jump to the popped word; with an empty stack halt, which is no fault (60 R163). -/
def execRet (s : State) : Outcome :=
  match popWord s with
  | .ok (t, popped) => .next (popped.jumpTo t)
  | .error _ => .next (s.advance 1).halt

end Sys2Proof.Machine
end

