-- ==== Sys2Proof/Machine/Compare.lean ====
section
/-! DEFINITION. `EQ` and `GT` (43_compare.md). -/

namespace Sys2Proof.Machine

/-- `EQ a, b, c` (R115). -/
def execEq (a b c : Word) (s : State) : Outcome :=
  conclude s (binaryEffect (fun vb vc => .ok (compareEq vb vc)) a b c s)

/-- `GT a, b, c` (R116). -/
def execGt (a b c : Word) (s : State) : Outcome :=
  conclude s (binaryEffect (fun vb vc => .ok (compareGt vb vc)) a b c s)

end Sys2Proof.Machine
end

