-- ==== Sys2Proof/Machine/HaltNoop.lean ====
section
/-! DEFINITION. `HALT` and `NOOP` (40_halt_noop.md). In every meaning `s` is the state in which the step began: `s.pc` is the
address `A` of the opcode word, and the meaning itself moves the counter past the instruction's words. -/

namespace Sys2Proof.Machine

/-- `HALT` (R100): stop the run cleanly; `pc` stays at `A + 1` (70 R191). -/
def execHalt (s : State) : Outcome := .next (s.advance 1).halt

/-- `NOOP` (R101): only the counter moves. -/
def execNoop (s : State) : Outcome := .next (s.advance 1)

end Sys2Proof.Machine
end

