-- ==== Sys2Proof/Machine/HeapData.lean ====
section
/-! DEFINITION. `RMEM` and `WMEM` (47_heap.md). The effective address is the value of one operand (R137). -/

namespace Sys2Proof.Machine

/-- `RMEM a, b` (R135): read a whole heap word, unmasked, into a register. -/
def execRmem (a b : Word) (s : State) : Outcome :=
  conclude s (unaryEffect (fun addr => memRead addr s.heap) a b s)

/-- The effect of `WMEM` (R136): address first, then the value, then the heap's bound. -/
def wmemEffect (a b : Word) (s : State) : Except Trap State := do
  let addr ← val a s
  let v ← val b s
  let m ← memWrite addr v s.heap
  .ok { s.advance 3 with heap := m }

/-- `WMEM a, b` (R136): write a value into a heap word. -/
def execWmem (a b : Word) (s : State) : Outcome := conclude s (wmemEffect a b s)

end Sys2Proof.Machine
end

