-- ==== Sys2Proof/Machine/Jump.lean ====
section
/-! DEFINITION. `JMP`, `JT` and `JF` (44_jump.md). -/

namespace Sys2Proof.Machine

/-- The effect of `JMP` (R120). The jump never faults on the target's value. -/
def jumpEffect (a : Word) (s : State) : Except Trap State := do
  let t ← val a s
  .ok (s.jumpTo t)

/-- `JMP a` (R120). -/
def execJmp (a : Word) (s : State) : Outcome := conclude s (jumpEffect a s)

/-- The effect of a conditional jump (R121, R122). The condition is resolved first. The target is resolved on the taken
path, and on the untaken path only in the `eager` reading, where it can fault but is not used. -/
def condJumpEffect (eager : Bool) (test : Word → Bool) (a b : Word) (s : State) : Except Trap State := do
  let va ← val a s
  if test va then do
    let t ← val b s
    .ok (s.jumpTo t)
  else if eager then do
    let _ ← val b s
    .ok (s.advance 3)
  else
    .ok (s.advance 3)

/-- `JT a, b` (R121): jump if the value is not zero. -/
def execJt (a b : Word) (s : State) : Outcome :=
  conclude s (condJumpEffect Config.jtEagerTarget isNonzero a b s)

/-- `JF a, b` (R122): jump if the value is zero. -/
def execJf (a b : Word) (s : State) : Outcome :=
  conclude s (condJumpEffect Config.jtEagerTarget isZero a b s)

end Sys2Proof.Machine
end

