-- ==== Sys2Proof/Machine/Logic.lean ====
section
/-! DEFINITION. `AND`, `OR` and `NOT` (46_logic.md): bitwise on 16 bits, then "masked to 15 bits" (R133). -/

namespace Sys2Proof.Machine

/-- Bit 15 of the result is forced to 0 (R133). -/
def mask15 (v : Word) : Word := v &&& 0x7FFF#16

/-- `(vb & vc) & 0x7FFF` (R130). -/
def aluAnd (vb vc : Word) : Word := mask15 (vb &&& vc)

/-- `(vb | vc) & 0x7FFF` (R131). -/
def aluOr (vb vc : Word) : Word := mask15 (vb ||| vc)

/-- `(~vb) & 0x7FFF` (R132). -/
def aluNot (vb : Word) : Word := mask15 (~~~vb)

/-- `AND a, b, c` (R130). -/
def execAnd (a b c : Word) (s : State) : Outcome :=
  conclude s (binaryEffect (fun vb vc => .ok (aluAnd vb vc)) a b c s)

/-- `OR a, b, c` (R131). -/
def execOr (a b c : Word) (s : State) : Outcome :=
  conclude s (binaryEffect (fun vb vc => .ok (aluOr vb vc)) a b c s)

/-- `NOT a, b` (R132). -/
def execNot (a b : Word) (s : State) : Outcome :=
  conclude s (unaryEffect (fun vb => .ok (aluNot vb)) a b s)

end Sys2Proof.Machine
end

