-- ==== Sys2Proof/Machine/SetReg.lean ====
section
/-! DEFINITION. `SET` (41_set.md). -/

namespace Sys2Proof.Machine

/-- `SET a, b` (R105): copy all 16 bits of a value into a register. -/
def execSet (a b : Word) (s : State) : Outcome := conclude s (unaryEffect .ok a b s)

end Sys2Proof.Machine
end

