-- ==== Sys2Proof/Machine/Stack.lean ====
section
/-! DEFINITION. `PUSH` and `POP` (42_stack.md). -/

namespace Sys2Proof.Machine

/-- The effect of `PUSH` (R110). -/
def pushEffect (a : Word) (s : State) : Except Trap State := do
  let v ← val a s
  .ok (pushWord v (s.advance 2))

/-- `PUSH a` (R110): push a value. -/
def execPush (a : Word) (s : State) : Outcome := conclude s (pushEffect a s)

/-- The effect of `POP` (R111): the destination is tested before the stack. -/
def popEffect (a : Word) (s : State) : Except Trap State := do
  let i ← dst a
  let (v, t) ← popWord s
  writeRegister i v (t.advance 2)

/-- `POP a` (R111): pop into a register; an empty stack is a fault here. -/
def execPop (a : Word) (s : State) : Outcome := conclude s (popEffect a s)

end Sys2Proof.Machine
end

