-- ==== Sys2Proof/WellFormed.lean ====
section
/-! DEFINITION. Which instructions have operand words legal for their roles (30_encoding.md R72, R76, R80). Decoding does not
check this ("decode does not validate operand legality, only arity", R79) and the machine runs an ill-formed
instruction all the same: it raises the fault R80 names. Nothing of the machine depends on this file; claims do. -/

namespace Sys2Proof

/-- A word legal in the destination role: it names a register, 32768..32775 (R75). -/
def legalDst (w : Word) : Bool := 32768 ≤ w.toNat && w.toNat ≤ 32775

/-- A word legal in the value role: a literal or a register, 0..32775 (R74). -/
def legalVal (w : Word) : Bool := w.toNat ≤ 32775

/-- Every operand word is legal for the role the opcode map gives it (R76, columns `a`, `b`, `c`). -/
def Instr.wellFormed : Instr → Bool
  | .halt | .ret | .noop => true
  | .pop a | .inb a => legalDst a
  | .push a | .jmp a | .call a | .out a => legalVal a
  | .set a b | .not a b | .rmem a b => legalDst a && legalVal b
  | .jt a b | .jf a b | .wmem a b => legalVal a && legalVal b
  | .eq a b c | .gt a b c | .add a b c | .mult a b c | .mod a b c | .and a b c | .or a b c =>
    legalDst a && legalVal b && legalVal c

end Sys2Proof
end

