-- ==== Sys2Proof/Decode.lean ====
section
/-! DEFINITION. The opcode map, the decoder and the encoder (30_encoding.md R70 to R81). The decoder is written once over a
reader of words, so that decoding a list of words and decoding the heap at the program counter (Machine/Fetch.lean)
are the same algorithm. -/

namespace Sys2Proof

/-- A row of the opcode map: the format (R70, told apart by the operand count alone) with the instruction it builds from
its raw operand words. -/
inductive Format where
  /-- F0: the opcode word alone. -/
  | f0 (mk : Instr)
  /-- F1: one operand word. -/
  | f1 (mk : Word → Instr)
  /-- F2: two operand words. -/
  | f2 (mk : Word → Word → Instr)
  /-- F3: three operand words. -/
  | f3 (mk : Word → Word → Word → Instr)

/-- The opcode map of R76 as one table: the opcode number is the row's position, from 0. The numbers of `HALT` and `OUT`
are the source's, the other twenty are the spec's decision D1. UNVERIFIED, log entry 8, unsafe. -/
def opcodeTable : List Format :=
  [ .f0 .halt,                                                             -- 0
    .f2 .set,                                                              -- 1
    .f1 .push,                                                             -- 2
    .f1 .pop,                                                              -- 3
    .f3 .eq,                                                               -- 4
    .f3 .gt,                                                               -- 5
    .f1 .jmp,                                                              -- 6
    .f2 .jt,                                                               -- 7
    .f2 .jf,                                                               -- 8
    .f3 .add ] ++                                                          -- 9
  [ .f3 .mult,                                                             -- 10
    .f3 .mod,                                                              -- 11
    .f3 .and,                                                              -- 12
    .f3 .or,                                                               -- 13
    .f2 .not,                                                              -- 14
    .f2 .rmem,                                                             -- 15
    .f2 .wmem,                                                             -- 16
    .f1 .call,                                                             -- 17
    .f0 .ret,                                                              -- 18
    .f1 .out,                                                              -- 19
    .f1 .inb,                                                              -- 20
    .f0 .noop ]                                                            -- 21

/-- The row an opcode word selects. All 16 bits count and the word is never resolved through a register (R71); a word
above 21 selects none (R78). -/
def formatOf (op : Word) : Option Format := opcodeTable[op.toNat]?

/-- The length of an instruction in words, one more than its operand count (R76, R81). -/
def instrLength : Instr → Nat
  | .halt | .ret | .noop => 1
  | .push _ | .pop _ | .jmp _ | .call _ | .out _ | .inb _ => 2
  | .set _ _ | .jt _ _ | .jf _ _ | .not _ _ | .rmem _ _ | .wmem _ _ => 3
  | .eq _ _ _ | .gt _ _ _ | .add _ _ _ | .mult _ _ _ | .mod _ _ _ | .and _ _ _ | .or _ _ _ => 4

/-- The decode algorithm of R77 over any reader: `read k` answers the word `k` words after the opcode word, or an error.
The opcode is tested before any operand word is read, and operand words are read in ascending order (R78). -/
def decodeWith {ε : Type} (read : Nat → Except ε Word) (unknown : Word → ε) : Except ε Instr := do
  let op ← read 0
  match formatOf op with
  | none => .error (unknown op)
  | some (.f0 mk) => .ok mk
  | some (.f1 mk) => do
    let a ← read 1
    .ok (mk a)
  | some (.f2 mk) => do
    let a ← read 1
    let b ← read 2
    .ok (mk a b)
  | some (.f3 mk) => do
    let a ← read 1
    let b ← read 2
    let c ← read 3
    .ok (mk a b c)

/-- Why a list of words is no instruction. -/
inductive DecodeError where
  /-- The opcode word is not in 0..21 (R78, R80). -/
  | unknownOpcode (op : Word)
  /-- The list ends before word `k` of the instruction. -/
  | outOfWords (k : Nat)
  deriving DecidableEq, Repr

/-- Word `k` of a list, or the named error. -/
def wordAt (ws : List Word) (k : Nat) : Except DecodeError Word :=
  match ws[k]? with
  | some w => .ok w
  | none => .error (.outOfWords k)

/-- Decode the instruction at the front of a list of words, and answer the rest of the list. -/
def decode (ws : List Word) : Except DecodeError (Instr × List Word) := do
  let i ← decodeWith (wordAt ws) .unknownOpcode
  .ok (i, ws.drop (instrLength i))

/-- The words of an instruction, opcode word first, from the number column of R76. -/
def encode : Instr → List Word
  | .halt => [0]
  | .set a b => [1, a, b]
  | .push a => [2, a]
  | .pop a => [3, a]
  | .eq a b c => [4, a, b, c]
  | .gt a b c => [5, a, b, c]
  | .jmp a => [6, a]
  | .jt a b => [7, a, b]
  | .jf a b => [8, a, b]
  | .add a b c => [9, a, b, c]
  | .mult a b c => [10, a, b, c]
  | .mod a b c => [11, a, b, c]
  | .and a b c => [12, a, b, c]
  | .or a b c => [13, a, b, c]
  | .not a b => [14, a, b]
  | .rmem a b => [15, a, b]
  | .wmem a b => [16, a, b]
  | .call a => [17, a]
  | .ret => [18]
  | .out a => [19, a]
  | .inb a => [20, a]
  | .noop => [21]

/-- The four words of the longest instruction (R70) in a number whose bit 0 is the least significant bit of the first
word; every bit at `nbits` and above is 0. -/
def tableWords (nbits w : Nat) : List Word :=
  (List.range 4).map fun k => BitVec.ofNat 16 (w % 2 ^ nbits / 65536 ^ k)

/-- The instruction the decoder reads from the `nbits` bits `w`, numbered as spec/opcode_table.json numbers them. -/
def decodeTableWord (nbits w : Nat) : Option Instr :=
  match decode (tableWords nbits w) with
  | .ok (i, _) => some i
  | .error _ => none

end Sys2Proof
end

