-- ==== Sys2Proof/Machine/Fetch.lean ====
section
/-! DEFINITION. The decoder on the heap at the program counter (30_encoding.md R77, R78), and laying an instruction's words
there. -/

namespace Sys2Proof.Machine

/-- `decode(A, heap)` (R77): the instruction and the post-decode address, or the fault of R78 in its order. It reads the
heap and nothing else, and writes nothing. -/
def decodeAt (pc : Word) (heap : Memory) : Except Trap (Instr × Word) := do
  let i ← decodeWith (fun k => memRead (pc + BitVec.ofNat 16 k) heap) Trap.unknownOpcode
  .ok (i, pc + BitVec.ofNat 16 (instrLength i))

/-- Lay words into heap cells from address `at0` up; words that fall beyond the last cell are dropped. -/
def layWords (at0 : Nat) (ws : List Word) (m : Memory) : Memory :=
  match ws with
  | [] => m
  | w :: rest => if at0 < 32768 then layWords (at0 + 1) rest (m.write at0 w) else m

end Sys2Proof.Machine
end

