-- ==== Sys2Proof/Machine/Step.lean ====
section
/-! DEFINITION. The step of the block (10_state.md R33). -/

namespace Sys2Proof.Machine

/-- While `Running`: decode at the counter, then run the instruction; a decode fault is taken as any other (R33, R78). In
the other run states no step exists, which is answered by name (log entry 4); nor does one for an `IN` that waits, which its
meaning answers (log entry 5). -/
def step (s : State) : Host.Outcome State Fault Refusal :=
  match s.runstate with
  | .ready => .fault .noStepReady
  | .halted => .fault .noStepHalted
  | .faulted => .fault .noStepFaulted
  | .running =>
    match decodeAt s.pc s.heap with
    | .error t => conclude s (.error t)
    | .ok (i, _) => exec i s

/-- `s` with an instruction's words in the four heap cells at its `pc` and the run started. It stands for the host's
`load` and `start` (70 R184; log entry 7). -/
def State.withFetchWord (s : State) (nbits w : Nat) : State :=
  { s with heap := layWords s.pc.toNat (tableWords nbits w) s.heap, runstate := .running }

end Sys2Proof.Machine
end

