-- ==== Sys2Proof/Machine/HostPort.lean ====
section
/-! DEFINITION. The host's side of the interface (10_state.md R41) and the Loader's contract (20_memory.md R52). The host acts
only between two steps (70 R188), so each of its moves is a function of the state of its own and no part of `step`. Each
move is answered only where the column "when allowed" of R41 has it. -/

namespace Sys2Proof.Machine

/-- The words of an image: consecutive byte pairs, low byte first; an odd number of bytes is `MalformedImage`, answered
as `none`, since the Loader refuses it before the block sees anything (R52, R53, 60 R164). -/
def imageWords : List Byte → Option (List Word)
  | [] => some []
  | [_] => none
  | lo :: hi :: rest => (imageWords rest).map fun ws => (hi ++ lo) :: ws

/-- A transaction the host starts (R41). -/
inductive HostMove where
  /-- `reset()`, any time between two steps, with the input the host gives the new run at its start: `inp` is "whatever
  the host will supply to the new run" (70 R180), "given at the start of the run" (49_io.md R148). -/
  | reset (stream : List Byte) (ended : Bool)
  /-- `load(words)`, in `Ready`, once. -/
  | load (words : List Word)
  /-- `start()`, in `Ready`; ignored elsewhere (R31). -/
  | start
  /-- `in(byte)`, which "answers the request of a waiting `IN`". -/
  | input (b : Byte)
  /-- `in_end()`, which answers it too. -/
  | inputEnd
  deriving DecidableEq, Repr

/-- `reset()`: every piece of state takes its reset value, whatever the run state was (70 R180; D22, log entry 14). The
input is the host's (log entry 6). The counter of free values goes on, so that two runs do not share one. -/
def hostReset (stream : List Byte) (ended : Bool) (s : State) : State :=
  { State.reset with inp := stream, inpEnded := ended, free := s.free }

/-- `load(words)`, in `Ready`, once after a reset (R41, R182; log entry 7): word `i` goes to cell `i`, unchecked and unaltered. An image of more than 32768
words faults with `AddressOutOfBounds(32768)` and the record's address 32768 (R183; D11, log entry 9). -/
def hostLoad (words : List Word) (s : State) : Option State :=
  match s.runstate with
  | .ready =>
    if s.imageLoaded then
      none
    else if words.length ≤ 32768 then
      some { s with heap := layWords 0 words s.heap, imageLoaded := true }
    else
      some (takeFaultAt 32768 (.addressOutOfBounds 32768)
        { s with heap := layWords 0 (words.take (Config.loadKept s.free)) s.heap, imageLoaded := true })
  | .running => none
  | .halted => none
  | .faulted => none

/-- `start()`: `Ready` becomes `Running`; ignored in any other state (R31; D10, log entry 7). -/
def hostStart (s : State) : State :=
  match s.runstate with
  | .ready => { s with runstate := .running }
  | .running => s
  | .halted => s
  | .faulted => s

/-- Whether an `IN` waits: the one step that does not exist for want of the host's answer (R33, R148). -/
def awaitsInput (s : State) : Bool :=
  match step s with
  | .fault .noStepAwaitingInput => true
  | .fault .noStepReady => false
  | .fault .noStepHalted => false
  | .fault .noStepFaulted => false
  | .next _ => false
  | .refused _ => false

/-- `in(byte)`, the host's answer to a waiting `IN`: its byte is there to be taken (R41, R148). -/
def hostInput (b : Byte) (s : State) : Option State :=
  if awaitsInput s then some { s with inp := [b] } else none

/-- `in_end()`, the host's other answer to a waiting `IN`: the stream has ended (R41, R148). -/
def hostInputEnd (s : State) : Option State :=
  if awaitsInput s then some { s with inpEnded := true } else none

/-- What a host move does; `none` where R41 does not allow it. -/
def hostMove (m : HostMove) (s : State) : Option State :=
  match m with
  | .reset stream ended => some (hostReset stream ended s)
  | .load words => hostLoad words s
  | .start => some (hostStart s)
  | .input b => hostInput b s
  | .inputEnd => hostInputEnd s

/-- What the status port shows (R41). -/
structure Status where
  runstate : RunState
  faultKind : BitVec 4
  faultAddr : Word
  faultInfo : Word
  deriving DecidableEq, Repr

/-- The status port, always readable and without effect (R41, R32). -/
def status (s : State) : Status :=
  { runstate := s.runstate, faultKind := s.fault.kind.code, faultAddr := s.fault.addr, faultInfo := s.fault.info }

end Sys2Proof.Machine
end

