-- ==== Sys2Proof/Safety.lean ====
section
/-! DEFINITION. The terms in which claims speak of a good state and of a run: the invariant of the block, the data a fault
leaves alone, and the states the block and its host reach from reset. -/

namespace Sys2Proof.Machine

/-- A fault record that a fault of the block can leave: the kind is one the block records, and the information word and
the address fit the kind (10_state.md R32, 60_exceptions.md R151, R164, R165). Only `AddressOutOfBounds` has a faulting
address of 32768 or more, since every other fault needs an opcode word that was read. -/
abbrev FaultRecord.Fits (r : FaultRecord) : Prop :=
  match r.kind with
  | .noFault => False
  | .malformedImage => False
  | .registerIndexOutOfBounds => False
  | .unknownOpcode => 21 < r.info.toNat ∧ r.addr.toNat < 32768
  | .addressOutOfBounds => 32768 ≤ r.info.toNat
  | .notARegister => (r.info.toNat < 32768 ∨ 32775 < r.info.toNat) ∧ r.addr.toNat < 32768
  | .invalidOperand => 32775 < r.info.toNat ∧ r.addr.toNat < 32768
  | .stackUnderflow => r.info = 0 ∧ r.addr.toNat < 32768
  | .divisionByZero => r.info = 0 ∧ r.addr.toNat < 32768
  | .inputExhausted => r.info = 0 ∧ r.addr.toNat < 32768

/-- The record is clear outside `Faulted` (R32) and fits its kind in `Faulted`. -/
def State.RecordInv (s : State) : Prop :=
  (s.runstate = .faulted → s.fault.Fits) ∧ (s.runstate ≠ .faulted → s.fault = .clear)

/-- The invariant of the block: the heap is in its canonical form, with addresses below 32768 only (20_memory.md R57,
"heap addresses always < 32768"), and the fault record is as R32 says. -/
def State.Inv (s : State) : Prop := s.heap.wf = true ∧ s.RecordInv

/-- Two states with the same registers, heap, stack, output and input: what a fault leaves exactly as it was (R160). -/
def State.SameData (s t : State) : Prop :=
  t.x = s.x ∧ t.heap = s.heap ∧ t.stack = s.stack ∧ t.out = s.out ∧ t.inp = s.inp ∧ t.inpEnded = s.inpEnded

/-- A clean end of a run (10_state.md R42). -/
def State.CleanEnd (s : State) : Prop := s.runstate = .halted

/-- The states that steps of the block and moves of the host reach from reset (70 R184). -/
inductive Reachable : State → Prop where
  | reset : Reachable State.reset
  | step {s t : State} : Reachable s → Machine.step s = .next t → Reachable t
  | host {s t : State} (m : HostMove) : Reachable s → hostMove m s = some t → Reachable t

end Sys2Proof.Machine
end

