-- ==== Sys2Proof/Certificates/Slice0/Obligations.lean ====
section
/-! DEFINITION. The statements for the provers. Each docstring names the rule of spec/ it formalises, and the decision of the
spec or the log entry it rests on where there is one. -/

open Sys2Proof Sys2Proof.Machine

/-- The operand count of each opcode number 0 to 21, the column "operands" of 30_encoding.md R76. -/
def Sys2Proof.Machine.operandCounts : List Nat :=
  [0, 2, 1, 1, 3, 3, 1, 2, 2, 3, 3] ++ [3, 3, 3, 2, 2, 2, 1, 0, 1, 1, 0]

/-- The operand word in the destination role of an instruction, if it has one (10_state.md R23). -/
def Sys2Proof.Machine.destWord : Instr → Option Word
  | .set a _ | .pop a | .eq a _ _ | .gt a _ _ | .add a _ _ | .mult a _ _ | .mod a _ _ | .and a _ _ | .or a _ _
  | .not a _ | .rmem a _ | .inb a => some a
  | .halt | .push _ | .jmp _ | .jt _ _ | .jf _ _ | .wmem _ _ | .call _ | .ret | .out _ | .noop => none

/-- The fault kinds the effect of an instruction can raise, the table of 60_exceptions.md R152. -/
def Sys2Proof.Machine.effectFaults : Instr → List FaultKind
  | .halt | .ret | .noop => []
  | .push _ | .jmp _ | .jt _ _ | .jf _ _ | .call _ | .out _ => [.invalidOperand]
  | .pop _ => [.notARegister, .stackUnderflow]
  | .set _ _ | .eq _ _ _ | .gt _ _ _ | .add _ _ _ | .mult _ _ _ | .and _ _ _ | .or _ _ _ | .not _ _ =>
    [.notARegister, .invalidOperand]
  | .mod _ _ _ => [.notARegister, .invalidOperand, .divisionByZero]
  | .rmem _ _ => [.notARegister, .invalidOperand, .addressOutOfBounds]
  | .wmem _ _ => [.invalidOperand, .addressOutOfBounds]
  | .inb _ => [.notARegister, .inputExhausted]

/-- Push words in order, the last one ending on top. -/
def Sys2Proof.Machine.pushAll : List Word → State → State
  | [], s => s
  | v :: rest, s => pushAll rest (pushWord v s)

/-- Pop `n` words, the first popped first. -/
def Sys2Proof.Machine.popAll : Nat → State → Except Trap (List Word × State)
  | 0, s => .ok ([], s)
  | n + 1, s => do
    let (v, t) ← popWord s
    let (vs, u) ← popAll n t
    .ok (v :: vs, u)

/-! ### Encoding and decoding -/

/-- Sanity: words written out from 30_encoding.md R76 and R83 decode to what they stand for, and 22, 275 and 32768 are no
opcodes (R71, R80). The numbers but 0 and 19 are the spec's decision D1 (log entry 8). -/
def Obligations.WrittenWordsDecode : Prop :=
  decode [0x0013, 0x0041] = .ok (.out 65, []) ∧
  decode [0x0009, 0x8002, 0x8000, 0x8001] = .ok (.add 32770 32768 32769, []) ∧
  decode [0x0000] = .ok (.halt, []) ∧
  decode [7, 6, 0] = .ok (.jt 6 0, []) ∧ decode [6, 0] = .ok (.jmp 0, []) ∧
  decode [22] = .error (.unknownOpcode 22) ∧ decode [275] = .error (.unknownOpcode 275) ∧
  decode [32768] = .error (.unknownOpcode 32768)

/-- Decode and encode agree in both directions, for every instruction with every operand word and every list of words: a
list decodes to `i` with `rest` left over exactly when it is the words of `i` followed by `rest` (R70, R76, R77, R79). The
opcode numbers are the spec's decision D1 (log entry 8). -/
def Obligations.DecodeIffEncode : Prop :=
  ∀ (ws rest : List Word) (i : Instr), decode ws = .ok (i, rest) ↔ ws = encode i ++ rest

/-- The heap decoder reads exactly the words of the instruction: `decodeAt` answers `i` and `next` exactly when the words
of `i` stand in the cells from `pc` on, all below 32768, and `next` is the post-decode address (R77, 10_state.md R26). -/
def Obligations.DecodeAtReadsTheWords : Prop :=
  ∀ (pc next : Word) (m : Memory) (i : Instr),
    decodeAt pc m = .ok (i, next) ↔
      (pc.toNat + (encode i).length ≤ 32768 ∧
        (∀ k, k < (encode i).length → (encode i)[k]? = some (m.read (pc.toNat + k))) ∧
        next.toNat = pc.toNat + (encode i).length)

/-- The faults of the decoder in the order of R78, and that in every other case it decodes: the opcode fetch beyond the
heap, an opcode above 21 (tested before any operand), an operand fetch that runs past the heap (always reported as
address 32768), and otherwise an instruction of one word more than its operand count. -/
def Obligations.DecoderFaultsInOrder : Prop :=
  ∀ (pc : Word) (m : Memory),
    (32768 ≤ pc.toNat → decodeAt pc m = .error (.addressOutOfBounds pc)) ∧
    (pc.toNat < 32768 → 21 < (m.read pc.toNat).toNat →
      decodeAt pc m = .error (.unknownOpcode (m.read pc.toNat))) ∧
    (∀ n, pc.toNat < 32768 → operandCounts[(m.read pc.toNat).toNat]? = some n →
      (32767 < pc.toNat + n → decodeAt pc m = .error (.addressOutOfBounds 32768)) ∧
      (pc.toNat + n ≤ 32767 →
        ∃ i next, decodeAt pc m = .ok (i, next) ∧ instrLength i = n + 1 ∧ next.toNat = pc.toNat + 1 + n))

/-! ### The step -/

/-- A step runs the decoded instruction: while `Running`, when the words at the counter decode to `i`, the step is `exec`
of `i` at that same state (10_state.md R33). Nothing stands around it: a meaning moves the counter past the
instruction's words itself. It holds for every instruction, well-formed or not. -/
def Obligations.StepRunsTheDecodedInstruction : Prop :=
  ∀ (s : State) (i : Instr) (next : Word),
    s.runstate = .running → decodeAt s.pc s.heap = .ok (i, next) → step s = exec i s

/-- A step whose decode faults takes that fault (R33, R78, 60_exceptions.md R160). -/
def Obligations.StepTakesTheDecodeFault : Prop :=
  ∀ (s : State) (e : Trap),
    s.runstate = .running → decodeAt s.pc s.heap = .error e → step s = .next (takeFault e s)

/-- No step exists outside `Running` (R33, "require runstate = Running -- otherwise no step exists"; R30, R162); the model
answers by name (log entry 4). -/
def Obligations.NoStepOutsideRunning : Prop :=
  ∀ s : State,
    (s.runstate = .ready → step s = .fault .noStepReady) ∧
    (s.runstate = .halted → step s = .fault .noStepHalted) ∧
    (s.runstate = .faulted → step s = .fault .noStepFaulted)

/-! ### Operand words -/

/-- R73: the class of an operand word, by numeric range. -/
def Obligations.KindByRange : Prop :=
  ∀ w : Word,
    (kind w = .literal ↔ w.toNat ≤ 32767) ∧
    (kind w = .register ↔ 32768 ≤ w.toNat ∧ w.toNat ≤ 32775) ∧
    (kind w = .invalid ↔ 32776 ≤ w.toNat)

/-- R74: the value of an operand word. -/
def Obligations.ValByKind : Prop :=
  ∀ (w : Word) (s : State),
    (kind w = .literal → val w s = .ok w) ∧
    (∀ i : Fin 8, w.toNat = 32768 + i.val → val w s = .ok (s.x[i])) ∧
    (kind w = .invalid → val w s = .error (.invalidOperand w))

/-- R75: the register index of an operand word in the destination role; a literal or an invalid word raises
`NotARegister`. -/
def Obligations.DstByKind : Prop :=
  ∀ w : Word,
    (32768 ≤ w.toNat → w.toNat ≤ 32775 → dst w = .ok (w.toNat - 32768)) ∧
    (w.toNat < 32768 ∨ 32775 < w.toNat → dst w = .error (.notARegister w))

/-- R72: the bit view of the classes: bit 15 clear is a literal; bit 15 set with bits 14:3 clear is the register of bits
2:0; bit 15 set with bits 14:3 not clear is invalid. -/
def Obligations.OperandBitLayout : Prop :=
  ∀ w : Word,
    (w.getLsbD 15 = false ↔ kind w = .literal) ∧
    (w.getLsbD 15 = true ∧ w.extractLsb' 3 12 = 0 ↔ kind w = .register) ∧
    (w.getLsbD 15 = true ∧ w.extractLsb' 3 12 ≠ 0 ↔ kind w = .invalid) ∧
    (kind w = .register → dst w = .ok (w.extractLsb' 0 3).toNat)

/-! ### The heap -/

/-- R55: `MemRead`. -/
def Obligations.MemReadChecksTheBound : Prop :=
  ∀ (addr : Word) (m : Memory),
    (32768 ≤ addr.toNat → memRead addr m = .error (.addressOutOfBounds addr)) ∧
    (addr.toNat < 32768 → memRead addr m = .ok (m.read addr.toNat))

/-- R56: `MemWrite` stores all 16 bits and changes no other cell. -/
def Obligations.MemWriteStoresOneCell : Prop :=
  ∀ (addr v : Word) (m : Memory),
    (32768 ≤ addr.toNat → memWrite addr v m = .error (.addressOutOfBounds addr)) ∧
    (addr.toNat < 32768 → ∃ m', memWrite addr v m = .ok m' ∧ m'.read addr.toNat = v ∧
      ∀ a, a ≠ addr.toNat → m'.read a = m.read a)

/-- R57: the translator by bits: bit 15 clear gives the cell `addr[14:0]`, bit 15 set raises `AddressOutOfBounds` (the
meaning of the unit's name is the spec's decision D15). -/
def Obligations.TranslatorTestsBit15 : Prop :=
  ∀ addr : Word,
    (addr.getLsbD 15 = false → translateAddr addr = .ok (addr.extractLsb' 0 15).toNat) ∧
    (addr.getLsbD 15 = true → translateAddr addr = .error (.addressOutOfBounds addr))

/-! ### The stack controller -/

/-- R112: `push` puts a word on top and never fails, `pop` takes the top or signals `StackUnderflow`, and `N` pushes
followed by `N` pops restore the state and give the words back in reverse order. Data and return addresses share the
stack: a `POP` after a `CALL` takes the return address, a `RET` after a `PUSH` jumps to the datum. -/
def Obligations.StackController : Prop :=
  (∀ (v : Word) (s : State), pushWord v s = { s with stack := v :: s.stack }) ∧
  (∀ s : State, s.stack = [] → popWord s = .error .stackUnderflow) ∧
  (∀ (v : Word) (rest : List Word) (s : State), s.stack = v :: rest → popWord s = .ok (v, { s with stack := rest })) ∧
  (∀ (vs : List Word) (s : State), popAll vs.length (pushAll vs s) = .ok (vs.reverse, s)) ∧
  (∀ (s t : State) (a b : Word) (i : Fin 8), dst b = .ok i.val → exec (.call a) s = .next t → t.runstate ≠ .faulted →
    exec (.pop b) t = .next { t with x := t.x.set i (s.pc + 2), stack := s.stack, pc := t.pc + 2 }) ∧
  (∀ (s t : State) (a v : Word), val a s = .ok v → exec (.push a) s = .next t →
    exec .ret t = .next { t with stack := s.stack, pc := v })

/-! ### Results: what each instruction does when it completes -/

/-- `HALT` and `NOOP` (40_halt_noop.md R100, R101). -/
def Obligations.HaltAndNoopComplete : Prop :=
  ∀ s : State,
    exec .halt s = .next { s with pc := s.pc + 1, runstate := .halted } ∧
    exec .noop s = .next { s with pc := s.pc + 1 }

/-- R100: a step at a zero word is `HALT`: it ends the run with `pc = A + 1` and nothing else changed, in cell 32767 too,
its fetch faults at 32768 and above, and after it no step exists. That the model says "no step" by the name `noStepHalted`
is its own choice (log entry 4). -/
def Obligations.HaltStep : Prop :=
  encode .halt = [0] ∧
  ∀ s : State, s.runstate = .running →
    (s.pc.toNat < 32768 → s.heap.read s.pc.toNat = 0 →
      step s = .next { s with pc := s.pc + 1, runstate := .halted } ∧
      step { s with pc := s.pc + 1, runstate := .halted } = .fault .noStepHalted) ∧
    (32768 ≤ s.pc.toNat → step s = .next (takeFault (.addressOutOfBounds s.pc) s))

/-- `SET` (41_set.md R105) copies all 16 bits of the value into the register. -/
def Obligations.SetCopiesTheValue : Prop :=
  ∀ (s : State) (a b vb : Word) (i : Fin 8), dst a = .ok i.val → val b s = .ok vb →
    exec (.set a b) s = .next { s with x := s.x.set i vb, pc := s.pc + 3 }

/-- `PUSH` and `POP` (42_stack.md R110, R111), and `POP` on an empty stack, which faults (60_exceptions.md R155). -/
def Obligations.PushAndPopOutcomes : Prop :=
  (∀ (s : State) (a va : Word), val a s = .ok va →
    exec (.push a) s = .next { s with stack := va :: s.stack, pc := s.pc + 2 }) ∧
  (∀ (s : State) (a v : Word) (rest : List Word) (i : Fin 8), dst a = .ok i.val → s.stack = v :: rest →
    exec (.pop a) s = .next { s with x := s.x.set i v, stack := rest, pc := s.pc + 2 }) ∧
  (∀ (s : State) (a : Word) (i : Fin 8), dst a = .ok i.val → s.stack = [] →
    exec (.pop a) s = .next (takeFault .stackUnderflow s))

/-- `EQ` and `GT` (43_compare.md R115, R116): 1 or 0 by the 16-bit unsigned values, nothing reduced. -/
def Obligations.CompareWritesOneOrZero : Prop :=
  ∀ (s : State) (a b c vb vc : Word) (i : Fin 8), dst a = .ok i.val → val b s = .ok vb → val c s = .ok vc →
    exec (.eq a b c) s = .next { s with x := s.x.set i (if vb.toNat = vc.toNat then 1 else 0), pc := s.pc + 4 } ∧
    exec (.gt a b c) s = .next { s with x := s.x.set i (if vb.toNat > vc.toNat then 1 else 0), pc := s.pc + 4 }

/-- `JMP` (44_jump.md R120): the counter becomes the value, whatever it is (10_state.md R28, R29; D2, log entry 16). -/
def Obligations.JmpAssignsTheCounter : Prop :=
  ∀ (s : State) (a t : Word), val a s = .ok t → exec (.jmp a) s = .next { s with pc := t }

/-- `JT` and `JF` (R121, R122): taken on a nonzero, on a zero condition, else only past their words; on the untaken path
the target is not resolved, so `b` may be any word (the spec's decision D6, `Config.jtEagerTarget` at its default, log
entry 10). -/
def Obligations.ConditionalJumpOutcomes : Prop :=
  ∀ (s : State) (a b va : Word), val a s = .ok va →
    (∀ t, va.toNat ≠ 0 → val b s = .ok t → exec (.jt a b) s = .next { s with pc := t }) ∧
    (va.toNat = 0 → exec (.jt a b) s = .next { s with pc := s.pc + 3 }) ∧
    (∀ t, va.toNat = 0 → val b s = .ok t → exec (.jf a b) s = .next { s with pc := t }) ∧
    (va.toNat ≠ 0 → exec (.jf a b) s = .next { s with pc := s.pc + 3 })

/-- The parameter `JT_EAGER_TARGET` (00_scope.md R5, R121; 93 U6): where the target operand is legal the two readings
agree, and where it is not they differ on the untaken path only, where the eager one faults and the other does not. -/
def Obligations.EagerTargetDiffersOnlyUntaken : Prop :=
  ∀ (test : Word → Bool) (s : State) (a b va : Word), val a s = .ok va →
    (kind b ≠ .invalid → condJumpEffect true test a b s = condJumpEffect false test a b s) ∧
    (kind b = .invalid → test va = true →
      condJumpEffect true test a b s = .error (.invalidOperand b) ∧
      condJumpEffect false test a b s = .error (.invalidOperand b)) ∧
    (kind b = .invalid → test va = false →
      condJumpEffect true test a b s = .error (.invalidOperand b) ∧
      condJumpEffect false test a b s = .ok { s with pc := s.pc + 3 })

/-- `ADD` and `MULT` (45_arith.md R125, R126): the exact sum or product of the 16-bit values, modulo 32768. -/
def Obligations.AddAndMultWriteTheExactResultModulo : Prop :=
  ∀ (s : State) (a b c vb vc : Word) (i : Fin 8), dst a = .ok i.val → val b s = .ok vb → val c s = .ok vc →
    exec (.add a b c) s =
      .next { s with x := s.x.set i (BitVec.ofNat 16 ((vb.toNat + vc.toNat) % 32768)), pc := s.pc + 4 } ∧
    exec (.mult a b c) s =
      .next { s with x := s.x.set i (BitVec.ofNat 16 ((vb.toNat * vc.toNat) % 32768)), pc := s.pc + 4 }

/-- `MOD` (R127): the remainder, reduced modulo 32768 (the outer reduction is the spec's decision D4, log entry 11), or
`DivisionByZero` for a divisor of 0, with 0 mod 0 among them. -/
def Obligations.ModOutcomes : Prop :=
  ∀ (s : State) (a b c vb vc : Word) (i : Fin 8), dst a = .ok i.val → val b s = .ok vb → val c s = .ok vc →
    (vc.toNat ≠ 0 → exec (.mod a b c) s =
      .next { s with x := s.x.set i (BitVec.ofNat 16 (vb.toNat % vc.toNat % 32768)), pc := s.pc + 4 }) ∧
    (vc.toNat = 0 → exec (.mod a b c) s = .next (takeFault .divisionByZero s))

/-- R128, law 6: a 15-bit datapath fed with bits 14:0 of each value gives the same sum and product. -/
def Obligations.FifteenBitDatapathSuffices : Prop :=
  ∀ vb vc : Word,
    aluAdd vb vc = (vb.extractLsb' 0 15 + vc.extractLsb' 0 15).setWidth 16 ∧
    aluMult vb vc = (vb.extractLsb' 0 15 * vc.extractLsb' 0 15).setWidth 16

/-- `AND`, `OR` and `NOT` (46_logic.md R130 to R132): bit by bit, bits 14:0 are those of the operation and bit 15 is 0. -/
def Obligations.LogicIsBitwiseMaskedTo15Bits : Prop :=
  ∀ (s : State) (a b c vb vc : Word) (i : Fin 8), dst a = .ok i.val → val b s = .ok vb → val c s = .ok vc →
    ∃ vAnd vOr vNot : Word,
      exec (.and a b c) s = .next { s with x := s.x.set i vAnd, pc := s.pc + 4 } ∧
      exec (.or a b c) s = .next { s with x := s.x.set i vOr, pc := s.pc + 4 } ∧
      exec (.not a b) s = .next { s with x := s.x.set i vNot, pc := s.pc + 3 } ∧
      vAnd.getLsbD 15 = false ∧ vOr.getLsbD 15 = false ∧ vNot.getLsbD 15 = false ∧
      ∀ k, k < 15 →
        vAnd.getLsbD k = (vb.getLsbD k && vc.getLsbD k) ∧
        vOr.getLsbD k = (vb.getLsbD k || vc.getLsbD k) ∧
        vNot.getLsbD k = !vb.getLsbD k

/-- `NOT` in numbers (R132): 32767 less the low 15 bits of the value, and twice `NOT` gives back a value at most 32767. -/
def Obligations.NotIsComplementTo32767 : Prop :=
  ∀ v : Word,
    (aluNot v).toNat = 32767 - v.toNat % 32768 ∧
    (v.toNat ≤ 32767 → aluNot (aluNot v) = v)

/-- `RMEM` (47_heap.md R135): all 16 bits of the cell, or `AddressOutOfBounds`. -/
def Obligations.RmemOutcomes : Prop :=
  ∀ (s : State) (a b addr : Word) (i : Fin 8), dst a = .ok i.val → val b s = .ok addr →
    (addr.toNat < 32768 →
      exec (.rmem a b) s = .next { s with x := s.x.set i (s.heap.read addr.toNat), pc := s.pc + 3 }) ∧
    (32768 ≤ addr.toNat → exec (.rmem a b) s = .next (takeFault (.addressOutOfBounds addr) s))

/-- `WMEM` (R136): the cell of the address holds all 16 bits of the value, every other cell and all else but the counter
is as before; or `AddressOutOfBounds`, with nothing written. -/
def Obligations.WmemOutcomes : Prop :=
  ∀ (s : State) (a b addr v : Word), val a s = .ok addr → val b s = .ok v →
    (addr.toNat < 32768 → ∃ m : Memory,
      exec (.wmem a b) s = .next { s with heap := m, pc := s.pc + 3 } ∧
      m.read addr.toNat = v ∧ ∀ k, k ≠ addr.toNat → m.read k = s.heap.read k) ∧
    (32768 ≤ addr.toNat → exec (.wmem a b) s = .next (takeFault (.addressOutOfBounds addr) s))

/-- `CALL` (48_call_ret.md R140): push the post-decode address, jump to the target. -/
def Obligations.CallPushesTheReturnAddress : Prop :=
  ∀ (s : State) (a t : Word), val a s = .ok t →
    exec (.call a) s = .next { s with stack := (s.pc + 2) :: s.stack, pc := t }

/-- `RET` (R141): jump to the popped word, or halt on an empty stack, which is no fault (60_exceptions.md R163). -/
def Obligations.RetOutcomes : Prop :=
  ∀ s : State,
    (∀ t rest, s.stack = t :: rest → exec .ret s = .next { s with stack := rest, pc := t }) ∧
    (s.stack = [] → exec .ret s = .next { s with pc := s.pc + 1, runstate := .halted })

/-- R142: a `CALL`, then any state that kept the stack as the `CALL` left it, then `RET`: the counter is the address after
the `CALL` and the stack is the caller's. -/
def Obligations.CallThenRetResumes : Prop :=
  ∀ (s t u : State) (a : Word), kind a ≠ .invalid → exec (.call a) s = .next t → u.stack = t.stack →
    exec .ret u = .next { u with stack := s.stack, pc := s.pc + 2 }

/-- `OUT` (49_io.md R145): the low 8 bits of the value are appended to the output (one byte, D19, log entry 19). -/
def Obligations.OutEmitsTheLowByte : Prop :=
  ∀ (s : State) (a v : Word), val a s = .ok v →
    exec (.out a) s = .next { s with out := s.out ++ [BitVec.ofNat 8 (v.toNat % 256)], pc := s.pc + 2 }

/-- `IN` (R146, R148): it takes exactly one byte and writes it zero-extended; at end of stream it faults with
`InputExhausted`; while the host has answered neither, its step does not exist (10_state.md R33), which the model says by
the name `noStepAwaitingInput` (log entry 5). Then, and in no other state, the host may answer: with a byte, which the
next step takes, or with the end of the stream, on which the next step faults (10_state.md R41). That the operand is a
destination is the spec's decision D7 (log entry 18). -/
def Obligations.InOutcomes : Prop :=
  ∀ (s : State) (a : Word) (i : Fin 8), dst a = .ok i.val →
    (∀ b rest, s.inp = b :: rest →
      exec (.inb a) s = .next { s with x := s.x.set i (BitVec.ofNat 16 b.toNat), inp := rest, pc := s.pc + 2 }) ∧
    (s.inp = [] → s.inpEnded = true → exec (.inb a) s = .next (takeFault .inputExhausted s)) ∧
    (s.inp = [] → s.inpEnded = false → exec (.inb a) s = .fault .noStepAwaitingInput ∧
      ∀ next, s.runstate = .running → decodeAt s.pc s.heap = .ok (.inb a, next) →
        step s = .fault .noStepAwaitingInput ∧
        (∀ b, ∃ t, hostMove (.input b) s = some t ∧
          step t = .next { s with x := s.x.set i (BitVec.ofNat 16 b.toNat), pc := s.pc + 2 }) ∧
        (∃ t, hostMove .inputEnd s = some t ∧ step t = .next (takeFault .inputExhausted t) ∧
          t = { s with inpEnded := true }))

/-! ### Faults -/

/-- R160 and R161: fault entry writes the record and the run state and leaves registers, heap, stack, output and input
exactly as they were; nothing is said of `pc` (the record's fields are the spec's decision D8, log entry 13). -/
def Obligations.FaultEntry : Prop :=
  ∀ (e : Trap) (s : State),
    (takeFault e s).fault = { kind := e.kind, addr := s.pc, info := e.info } ∧
    (takeFault e s).runstate = .faulted ∧ s.SameData (takeFault e s)

/-- R151 and R32: the cause codes, as the status port shows them (the numbers are the spec's decision D17, log 13). -/
def Obligations.FaultCodes : Prop :=
  [FaultKind.noFault, .malformedImage, .unknownOpcode, .addressOutOfBounds, .registerIndexOutOfBounds, .notARegister,
    .invalidOperand, .stackUnderflow, .divisionByZero, .inputExhausted].map (fun k => k.code.toNat) =
    [0, 1, 2, 3, 4, 5, 6, 7, 8, 9]

/-- R75, R80 and R155: an instruction whose destination word names no register faults with `NotARegister` of that word,
whatever its other operands, the stack and the input are (the priority is the spec's decision D5, log entry 12). -/
def Obligations.IllegalDestinationFaultsFirst : Prop :=
  ∀ (i : Instr) (s : State) (a : Word), destWord i = some a → (a.toNat < 32768 ∨ 32775 < a.toNat) →
    exec i s = .next (takeFault (.notARegister a) s)

/-- R74, R80, R155: operands are resolved in encoding order and the first invalid value operand raises `InvalidOperand`,
before the operation's own test (the priority is the spec's decision D5, log entry 12). The instructions of three
operands with a legal destination: `b`, then `c`. `SET`, `NOT`, `RMEM`: `b`. `PUSH`, `JMP`, `CALL`, `OUT`, `JT`, `JF`: `a`.
`WMEM`: `a`, then `b`. `JT` and `JF` when the jump is taken: `b`. -/
def Obligations.InvalidValueOperandFaults : Prop :=
  (∀ (s : State) (a b c : Word) (i : Instr),
    i ∈ [Instr.eq a b c, .gt a b c, .add a b c, .mult a b c, .mod a b c, .and a b c, .or a b c] →
    kind a = .register →
    (kind b = .invalid → exec i s = .next (takeFault (.invalidOperand b) s)) ∧
    (kind b ≠ .invalid → kind c = .invalid → exec i s = .next (takeFault (.invalidOperand c) s))) ∧
  (∀ (s : State) (a b : Word) (i : Instr), i ∈ [Instr.set a b, .not a b, .rmem a b] →
    kind a = .register → kind b = .invalid → exec i s = .next (takeFault (.invalidOperand b) s)) ∧
  (∀ (s : State) (a b : Word) (i : Instr),
    i ∈ [Instr.push a, .jmp a, .call a, .out a, .jt a b, .jf a b, .wmem a b] →
    kind a = .invalid → exec i s = .next (takeFault (.invalidOperand a) s)) ∧
  (∀ (s : State) (a b : Word), kind a ≠ .invalid → kind b = .invalid →
    exec (.wmem a b) s = .next (takeFault (.invalidOperand b) s)) ∧
  (∀ (s : State) (a b va : Word), val a s = .ok va → kind b = .invalid →
    (va.toNat ≠ 0 → exec (.jt a b) s = .next (takeFault (.invalidOperand b) s)) ∧
    (va.toNat = 0 → exec (.jf a b) s = .next (takeFault (.invalidOperand b) s)))

/-- R152: an instruction whose effect faults records one of the kinds its row of the table allows, and no other. -/
def Obligations.EffectFaultsAreThoseOfTheTable : Prop :=
  ∀ (i : Instr) (s t : State), s.runstate = .running → exec i s = .next t → t.runstate = .faulted →
    t.fault.kind ∈ effectFaults i

/-- A well-formed instruction (every operand legal for its role) never faults on an operand: only the operation's own
tests are left (R152, R156, 30_encoding.md R80). -/
def Obligations.WellFormedInstructionsFaultOnlyOnTheirOwnTest : Prop :=
  ∀ (i : Instr) (s t : State), i.wellFormed = true → s.runstate = .running → exec i s = .next t →
    t.runstate = .faulted →
    t.fault.kind = .stackUnderflow ∨ t.fault.kind = .divisionByZero ∨ t.fault.kind = .addressOutOfBounds ∨
      t.fault.kind = .inputExhausted

/-! ### Frames -/

/-- Frame of the registers, for all 22 instructions (10_state.md R23): a register changes only if the destination operand
names it, so `HALT`, `PUSH`, `JMP`, `JT`, `JF`, `WMEM`, `CALL`, `RET`, `OUT` and `NOOP` change none. -/
def Obligations.OnlyTheDestinationRegisterChanges : Prop :=
  ∀ (i : Instr) (s t : State) (j : Fin 8), exec i s = .next t →
    (∀ a, destWord i = some a → a.toNat ≠ 32768 + j.val) → t.reg j = s.reg j

/-- Frame of the heap, for all 22 instructions (20_memory.md R63): every cell reads as before, but for the one cell whose
address is the value of `a` in `WMEM a, b`. -/
def Obligations.OnlyWmemChangesTheHeapAndOneCell : Prop :=
  ∀ (i : Instr) (s t : State) (k : Nat), exec i s = .next t →
    (∀ a b addr, i = .wmem a b → val a s = .ok addr → addr.toNat ≠ k) → t.heap.read k = s.heap.read k

/-- Frame of the stack (R63, 42_stack.md): only `PUSH`, `POP`, `CALL` and `RET` touch it, and only at its top: one word is
added, or the top is taken, or it is as before. -/
def Obligations.StackChangesOnlyAtItsTop : Prop :=
  ∀ (i : Instr) (s t : State), exec i s = .next t →
    t.stack = s.stack ∨
    (∃ a v, (i = .push a ∧ val a s = .ok v ∨ i = .call a ∧ v = s.pc + 2) ∧ t.stack = v :: s.stack) ∨
    (∃ v, (i = .ret ∨ ∃ a, i = .pop a) ∧ s.stack = v :: t.stack)

/-- Frame of the streams (10_state.md R36, 49_io.md R147, R148): the output is only ever appended to, by `OUT`, one byte;
the input is only ever taken from its front, by `IN`, one byte; no instruction ends the input stream. -/
def Obligations.StreamsMoveOneByteByOutAndIn : Prop :=
  ∀ (i : Instr) (s t : State), exec i s = .next t →
    t.inpEnded = s.inpEnded ∧
    (t.out = s.out ∨ ∃ a b, i = .out a ∧ t.out = s.out ++ [b]) ∧
    (t.inp = s.inp ∨ ∃ a b, i = .inb a ∧ s.inp = b :: t.inp)

/-- Frame of the run state and the fault record: an instruction takes a fault, or it leaves the record alone and the run
state too, but for `HALT` and `RET` on an empty stack, which halt (10_state.md R30, R38). Whether the image has been loaded
is the host's affair, and no instruction touches it (R41). -/
def Obligations.RunStateAndRecordFrame : Prop :=
  ∀ (i : Instr) (s t : State), exec i s = .next t →
    t.imageLoaded = s.imageLoaded ∧
    ((∃ e, t = takeFault e s) ∨
    (t.fault = s.fault ∧ t.runstate = s.runstate) ∨
    (t.fault = s.fault ∧ t.runstate = .halted ∧ (i = .halt ∨ (i = .ret ∧ s.stack = []))))

/-- R28: only `JMP`, `JT`, `JF`, `CALL` and `RET` assign the counter; every other instruction that completes leaves it at
the post-decode address, past its words. -/
def Obligations.OnlyControlTransfersAssignTheCounter : Prop :=
  ∀ (i : Instr) (s t : State), exec i s = .next t → t.runstate ≠ .faulted →
    (∀ a b, i ≠ .jmp a ∧ i ≠ .jt a b ∧ i ≠ .jf a b ∧ i ≠ .call a ∧ i ≠ .ret) →
    t.pc = s.pc + BitVec.ofNat 16 (encode i).length

/-- R22, the table of ranges: what each of these writers can leave in the register its destination names. -/
def Obligations.RangesOfRegisterWriters : Prop :=
  ∀ (s t : State) (j : Fin 8) (a b c : Word) (i : Instr), exec i s = .next t →
    t.runstate ≠ .faulted → a.toNat = 32768 + j.val →
    (i ∈ [Instr.add a b c, .mult a b c, .mod a b c, .and a b c, .or a b c, .not a b] → (t.reg j).toNat ≤ 32767) ∧
    (i ∈ [Instr.eq a b c, .gt a b c] → (t.reg j).toNat ≤ 1) ∧
    (i = .inb a → (t.reg j).toNat ≤ 255)

/-! ### Whole-machine rules -/

/-- The invariant holds at reset. -/
def Obligations.InvAtReset : Prop := State.reset.Inv

/-- Every step keeps the invariant, from every state that meets it: the heap stays in canonical form with addresses below
32768, and the fault record stays clear outside `Faulted` and fits its kind in `Faulted` (R32, R57, R151, R165). -/
def Obligations.StepKeepsInv : Prop :=
  ∀ s t : State, s.Inv → step s = .next t → t.Inv

/-- Every move of the host keeps the invariant, and a load, a byte and an end of input are moves only where the column
"when allowed" of 10_state.md R41 has them: a load in `Ready`, once after a reset; a byte or the end of input where a
waiting `IN` asks (R41, 49_io.md R148, 70_reset_and_hazards.md R180 to R183). -/
def Obligations.HostMovesKeepInv : Prop :=
  (∀ (m : HostMove) (s t : State), s.Inv → hostMove m s = some t → t.Inv) ∧
  (∀ (words : List Word) (s t : State), hostMove (.load words) s = some t →
    s.runstate = .ready ∧ s.imageLoaded = false ∧ ∀ again, hostMove (.load again) t = none) ∧
  (∀ (b : Byte) (s : State), (∃ t, hostMove (.input b) s = some t) ↔ step s = .fault .noStepAwaitingInput) ∧
  (∀ s : State, (∃ t, hostMove .inputEnd s = some t) ↔ step s = .fault .noStepAwaitingInput)

/-- R24, R164, R165: in no state that the block and its host reach from reset is the record's kind
`RegisterIndexOutOfBounds` or `MalformedImage`, and the record shows a fault exactly in `Faulted`. -/
def Obligations.ReachableRecordsAreReal : Prop :=
  ∀ s : State, Reachable s →
    s.fault.kind ≠ .registerIndexOutOfBounds ∧ s.fault.kind ≠ .malformedImage ∧
    (s.fault.kind = .noFault ↔ s.runstate ≠ .faulted)

/-- R160 and R161: faults are precise. A step that ends in `Faulted` began in `Running`, leaves registers, heap, stack,
output and input as they were, and records the address it began at (the record's fields are D8, log entry 13). -/
def Obligations.FaultsArePrecise : Prop :=
  ∀ s t : State, step s = .next t → t.runstate = .faulted →
    s.runstate = .running ∧ s.SameData t ∧ t.fault.addr = s.pc

/-- R42: `HALT` and `RET` with an empty stack are the only ways a step ends a run cleanly, and then the counter is the
address after that one word (70_reset_and_hazards.md R191, D21, log entry 20). -/
def Obligations.CleanEndOnlyByHaltOrEmptyRet : Prop :=
  ∀ s t : State, step s = .next t → t.CleanEnd →
    t.pc = s.pc + 1 ∧
    ∃ next, decodeAt s.pc s.heap = .ok (.halt, next) ∨ (decodeAt s.pc s.heap = .ok (.ret, next) ∧ s.stack = [])

/-- R62 and R187: a store is seen by the very next fetch. After a `WMEM` that writes the cell the counter then stands at,
the next step treats the word stored as its opcode word: `NOOP` for 21, `HALT` for 0, and a fault for a word above 21. -/
def Obligations.StoreIsSeenByTheNextFetch : Prop :=
  ∀ (s t : State) (a b addr v : Word), s.runstate = .running → val a s = .ok addr → val b s = .ok v →
    addr.toNat < 32768 → s.pc + 3 = addr → exec (.wmem a b) s = .next t →
    (v = 21 → step t = .next { t with pc := addr + 1 }) ∧
    (v = 0 → step t = .next { t with pc := addr + 1, runstate := .halted }) ∧
    (21 < v.toNat → step t = .next (takeFault (.unknownOpcode v) t))

/-- R60, R154 and R39: what a step does to the machine does not depend on the output already emitted: two states that
differ only in their output history take steps that differ only in it. -/
def Obligations.OutputHistoryDoesNotInfluence : Prop :=
  ∀ (s t : State) (o : List Byte), step s = .next t →
    ∃ new : List Byte, t.out = s.out ++ new ∧ step { s with out := o } = .next { t with out := o ++ new }

/-! ### Reset and the host -/

/-- R180 and R40: every piece of state after a reset given in any state (`pc` is the spec's derivation, the record's
values D8). The input is whatever the host gives the new run. That no image counts as loaded then is how the model keeps
R41's "once" (log entry 7). -/
def Obligations.ResetValues : Prop :=
  ∀ (stream : List Byte) (ended : Bool) (s : State), ∃ t, hostMove (.reset stream ended) s = some t ∧
    (∀ j : Fin 8, t.reg j = 0) ∧ (∀ k, t.heap.read k = 0) ∧ t.stack = [] ∧ t.pc = 0 ∧ t.runstate = .ready ∧
    t.fault.kind.code = 0 ∧ t.fault.addr = 0 ∧ t.fault.info = 0 ∧ t.out = [] ∧
    t.inp = stream ∧ t.inpEnded = ended ∧ t.imageLoaded = false

/-- R182 and R40: a load after a reset of an image that fits puts word `i` in cell `i` and leaves 0 in every other cell; then
`start` moves the block to `Running` (R31, D10, log entry 7) with nothing else changed. -/
def Obligations.LoadThenStart : Prop :=
  ∀ (words : List Word) (stream : List Byte) (ended : Bool) (before s : State), words.length ≤ 32768 →
    hostMove (.reset stream ended) before = some s →
    ∃ m : Memory, hostMove (.load words) s = some { s with heap := m, imageLoaded := true } ∧
      (∀ k, m.read k = words[k]?.getD 0) ∧
      hostMove .start { s with heap := m, imageLoaded := true } =
        some { s with heap := m, imageLoaded := true, runstate := .running }

/-- R183 (the spec's decision D11, log entry 9): the load of an image of more than 32768 words goes from `Ready` to
`Faulted` with `AddressOutOfBounds`, address and information 32768; nothing is said of the heap. And a load is made in
`Ready` only, once after a reset (R41, log entry 7). -/
def Obligations.LongImageFaultsAtTheLoad : Prop :=
  ∀ (words : List Word) (s : State),
    (s.runstate = .ready → s.imageLoaded = false → 32768 < words.length →
      ∃ t, hostMove (.load words) s = some t ∧ t.runstate = .faulted ∧
        t.fault = { kind := .addressOutOfBounds, addr := 32768, info := 32768 }) ∧
    (s.runstate ≠ .ready ∨ s.imageLoaded = true → hostMove (.load words) s = none)

/-- R52: an image of an even number of bytes is a sequence of little-endian words, `word[i] = B[2i] + 256 * B[2i+1]`; an
odd number is refused. -/
def Obligations.ImageWordsAreLittleEndian : Prop :=
  ∀ bytes : List Byte,
    (bytes.length % 2 = 1 → imageWords bytes = none) ∧
    (bytes.length % 2 = 0 → ∃ ws, imageWords bytes = some ws ∧ 2 * ws.length = bytes.length ∧
      ∀ k, k < ws.length → ∃ lo hi w, bytes[2 * k]? = some lo ∧ bytes[2 * k + 1]? = some hi ∧ ws[k]? = some w ∧
        w.toNat = lo.toNat + 256 * hi.toNat)
end

