-- ==== Sys2Proof/Laws/State.lean ====
section
/-! SUPPORT. One lemma for each field of `State` under each named update, so that no proof unfolds a record update. What the
counter is after a fault is left out on purpose: it is a free value. -/

namespace Sys2Proof.Machine

@[simp] theorem State.setReg_x (i : Fin 8) (v : Word) (s : State) : (s.setReg i v).x = s.x.set i v := rfl
@[simp] theorem State.setReg_pc (i : Fin 8) (v : Word) (s : State) : (s.setReg i v).pc = s.pc := rfl
@[simp] theorem State.setReg_runstate (i : Fin 8) (v : Word) (s : State) : (s.setReg i v).runstate = s.runstate := rfl
@[simp] theorem State.setReg_fault (i : Fin 8) (v : Word) (s : State) : (s.setReg i v).fault = s.fault := rfl
@[simp] theorem State.setReg_heap (i : Fin 8) (v : Word) (s : State) : (s.setReg i v).heap = s.heap := rfl
@[simp] theorem State.setReg_stack (i : Fin 8) (v : Word) (s : State) : (s.setReg i v).stack = s.stack := rfl
@[simp] theorem State.setReg_out (i : Fin 8) (v : Word) (s : State) : (s.setReg i v).out = s.out := rfl
@[simp] theorem State.setReg_inp (i : Fin 8) (v : Word) (s : State) : (s.setReg i v).inp = s.inp := rfl
@[simp] theorem State.setReg_inpEnded (i : Fin 8) (v : Word) (s : State) : (s.setReg i v).inpEnded = s.inpEnded := rfl
@[simp] theorem State.setReg_imageLoaded (i : Fin 8) (v : Word) (s : State) : (s.setReg i v).imageLoaded = s.imageLoaded := rfl
@[simp] theorem State.setReg_free (i : Fin 8) (v : Word) (s : State) : (s.setReg i v).free = s.free := rfl

@[simp] theorem State.advance_x (n : Nat) (s : State) : (s.advance n).x = s.x := rfl
@[simp] theorem State.advance_pc (n : Nat) (s : State) : (s.advance n).pc = s.pc + BitVec.ofNat 16 n := rfl
@[simp] theorem State.advance_runstate (n : Nat) (s : State) : (s.advance n).runstate = s.runstate := rfl
@[simp] theorem State.advance_fault (n : Nat) (s : State) : (s.advance n).fault = s.fault := rfl
@[simp] theorem State.advance_heap (n : Nat) (s : State) : (s.advance n).heap = s.heap := rfl
@[simp] theorem State.advance_stack (n : Nat) (s : State) : (s.advance n).stack = s.stack := rfl
@[simp] theorem State.advance_out (n : Nat) (s : State) : (s.advance n).out = s.out := rfl
@[simp] theorem State.advance_inp (n : Nat) (s : State) : (s.advance n).inp = s.inp := rfl
@[simp] theorem State.advance_inpEnded (n : Nat) (s : State) : (s.advance n).inpEnded = s.inpEnded := rfl
@[simp] theorem State.advance_imageLoaded (n : Nat) (s : State) : (s.advance n).imageLoaded = s.imageLoaded := rfl
@[simp] theorem State.advance_free (n : Nat) (s : State) : (s.advance n).free = s.free := rfl

@[simp] theorem State.jumpTo_x (t : Word) (s : State) : (s.jumpTo t).x = s.x := rfl
@[simp] theorem State.jumpTo_pc (t : Word) (s : State) : (s.jumpTo t).pc = t := rfl
@[simp] theorem State.jumpTo_runstate (t : Word) (s : State) : (s.jumpTo t).runstate = s.runstate := rfl
@[simp] theorem State.jumpTo_fault (t : Word) (s : State) : (s.jumpTo t).fault = s.fault := rfl
@[simp] theorem State.jumpTo_heap (t : Word) (s : State) : (s.jumpTo t).heap = s.heap := rfl
@[simp] theorem State.jumpTo_stack (t : Word) (s : State) : (s.jumpTo t).stack = s.stack := rfl
@[simp] theorem State.jumpTo_out (t : Word) (s : State) : (s.jumpTo t).out = s.out := rfl
@[simp] theorem State.jumpTo_inp (t : Word) (s : State) : (s.jumpTo t).inp = s.inp := rfl
@[simp] theorem State.jumpTo_inpEnded (t : Word) (s : State) : (s.jumpTo t).inpEnded = s.inpEnded := rfl
@[simp] theorem State.jumpTo_imageLoaded (t : Word) (s : State) : (s.jumpTo t).imageLoaded = s.imageLoaded := rfl
@[simp] theorem State.jumpTo_free (t : Word) (s : State) : (s.jumpTo t).free = s.free := rfl

@[simp] theorem State.halt_x (s : State) : (s.halt).x = s.x := rfl
@[simp] theorem State.halt_pc (s : State) : (s.halt).pc = s.pc := rfl
@[simp] theorem State.halt_runstate (s : State) : (s.halt).runstate = .halted := rfl
@[simp] theorem State.halt_fault (s : State) : (s.halt).fault = s.fault := rfl
@[simp] theorem State.halt_heap (s : State) : (s.halt).heap = s.heap := rfl
@[simp] theorem State.halt_stack (s : State) : (s.halt).stack = s.stack := rfl
@[simp] theorem State.halt_out (s : State) : (s.halt).out = s.out := rfl
@[simp] theorem State.halt_inp (s : State) : (s.halt).inp = s.inp := rfl
@[simp] theorem State.halt_inpEnded (s : State) : (s.halt).inpEnded = s.inpEnded := rfl
@[simp] theorem State.halt_imageLoaded (s : State) : (s.halt).imageLoaded = s.imageLoaded := rfl
@[simp] theorem State.halt_free (s : State) : (s.halt).free = s.free := rfl

@[simp] theorem pushWord_x (v : Word) (s : State) : (pushWord v s).x = s.x := rfl
@[simp] theorem pushWord_pc (v : Word) (s : State) : (pushWord v s).pc = s.pc := rfl
@[simp] theorem pushWord_runstate (v : Word) (s : State) : (pushWord v s).runstate = s.runstate := rfl
@[simp] theorem pushWord_fault (v : Word) (s : State) : (pushWord v s).fault = s.fault := rfl
@[simp] theorem pushWord_heap (v : Word) (s : State) : (pushWord v s).heap = s.heap := rfl
@[simp] theorem pushWord_stack (v : Word) (s : State) : (pushWord v s).stack = v :: s.stack := rfl
@[simp] theorem pushWord_out (v : Word) (s : State) : (pushWord v s).out = s.out := rfl
@[simp] theorem pushWord_inp (v : Word) (s : State) : (pushWord v s).inp = s.inp := rfl
@[simp] theorem pushWord_inpEnded (v : Word) (s : State) : (pushWord v s).inpEnded = s.inpEnded := rfl
@[simp] theorem pushWord_imageLoaded (v : Word) (s : State) : (pushWord v s).imageLoaded = s.imageLoaded := rfl
@[simp] theorem pushWord_free (v : Word) (s : State) : (pushWord v s).free = s.free := rfl

@[simp] theorem emit_x (b : Byte) (s : State) : (emit b s).x = s.x := rfl
@[simp] theorem emit_pc (b : Byte) (s : State) : (emit b s).pc = s.pc := rfl
@[simp] theorem emit_runstate (b : Byte) (s : State) : (emit b s).runstate = s.runstate := rfl
@[simp] theorem emit_fault (b : Byte) (s : State) : (emit b s).fault = s.fault := rfl
@[simp] theorem emit_heap (b : Byte) (s : State) : (emit b s).heap = s.heap := rfl
@[simp] theorem emit_stack (b : Byte) (s : State) : (emit b s).stack = s.stack := rfl
@[simp] theorem emit_out (b : Byte) (s : State) : (emit b s).out = s.out ++ [b] := rfl
@[simp] theorem emit_inp (b : Byte) (s : State) : (emit b s).inp = s.inp := rfl
@[simp] theorem emit_inpEnded (b : Byte) (s : State) : (emit b s).inpEnded = s.inpEnded := rfl
@[simp] theorem emit_imageLoaded (b : Byte) (s : State) : (emit b s).imageLoaded = s.imageLoaded := rfl
@[simp] theorem emit_free (b : Byte) (s : State) : (emit b s).free = s.free := rfl

@[simp] theorem takeFaultAt_x (a : Word) (e : Trap) (s : State) : (takeFaultAt a e s).x = s.x := rfl
@[simp] theorem takeFaultAt_runstate (a : Word) (e : Trap) (s : State) : (takeFaultAt a e s).runstate = .faulted := rfl
@[simp] theorem takeFaultAt_fault (a : Word) (e : Trap) (s : State) : (takeFaultAt a e s).fault = { kind := e.kind, addr := a, info := e.info } := rfl
@[simp] theorem takeFaultAt_heap (a : Word) (e : Trap) (s : State) : (takeFaultAt a e s).heap = s.heap := rfl
@[simp] theorem takeFaultAt_stack (a : Word) (e : Trap) (s : State) : (takeFaultAt a e s).stack = s.stack := rfl
@[simp] theorem takeFaultAt_out (a : Word) (e : Trap) (s : State) : (takeFaultAt a e s).out = s.out := rfl
@[simp] theorem takeFaultAt_inp (a : Word) (e : Trap) (s : State) : (takeFaultAt a e s).inp = s.inp := rfl
@[simp] theorem takeFaultAt_inpEnded (a : Word) (e : Trap) (s : State) : (takeFaultAt a e s).inpEnded = s.inpEnded := rfl
@[simp] theorem takeFaultAt_imageLoaded (a : Word) (e : Trap) (s : State) : (takeFaultAt a e s).imageLoaded = s.imageLoaded := rfl
@[simp] theorem takeFaultAt_free (a : Word) (e : Trap) (s : State) : (takeFaultAt a e s).free = s.free + 1 := rfl

@[simp] theorem takeFault_x (e : Trap) (s : State) : (takeFault e s).x = s.x := rfl
@[simp] theorem takeFault_runstate (e : Trap) (s : State) : (takeFault e s).runstate = .faulted := rfl
@[simp] theorem takeFault_fault (e : Trap) (s : State) : (takeFault e s).fault = { kind := e.kind, addr := s.pc, info := e.info } := rfl
@[simp] theorem takeFault_heap (e : Trap) (s : State) : (takeFault e s).heap = s.heap := rfl
@[simp] theorem takeFault_stack (e : Trap) (s : State) : (takeFault e s).stack = s.stack := rfl
@[simp] theorem takeFault_out (e : Trap) (s : State) : (takeFault e s).out = s.out := rfl
@[simp] theorem takeFault_inp (e : Trap) (s : State) : (takeFault e s).inp = s.inp := rfl
@[simp] theorem takeFault_inpEnded (e : Trap) (s : State) : (takeFault e s).inpEnded = s.inpEnded := rfl
@[simp] theorem takeFault_imageLoaded (e : Trap) (s : State) : (takeFault e s).imageLoaded = s.imageLoaded := rfl
@[simp] theorem takeFault_free (e : Trap) (s : State) : (takeFault e s).free = s.free + 1 := rfl

@[simp] theorem hostReset_x (bs : List Byte) (e : Bool) (s : State) : (hostReset bs e s).x = State.reset.x := rfl
@[simp] theorem hostReset_pc (bs : List Byte) (e : Bool) (s : State) : (hostReset bs e s).pc = State.reset.pc := rfl
@[simp] theorem hostReset_runstate (bs : List Byte) (e : Bool) (s : State) : (hostReset bs e s).runstate = State.reset.runstate := rfl
@[simp] theorem hostReset_fault (bs : List Byte) (e : Bool) (s : State) : (hostReset bs e s).fault = State.reset.fault := rfl
@[simp] theorem hostReset_heap (bs : List Byte) (e : Bool) (s : State) : (hostReset bs e s).heap = State.reset.heap := rfl
@[simp] theorem hostReset_stack (bs : List Byte) (e : Bool) (s : State) : (hostReset bs e s).stack = State.reset.stack := rfl
@[simp] theorem hostReset_out (bs : List Byte) (e : Bool) (s : State) : (hostReset bs e s).out = State.reset.out := rfl
@[simp] theorem hostReset_inp (bs : List Byte) (e : Bool) (s : State) : (hostReset bs e s).inp = bs := rfl
@[simp] theorem hostReset_inpEnded (bs : List Byte) (e : Bool) (s : State) : (hostReset bs e s).inpEnded = e := rfl
@[simp] theorem hostReset_imageLoaded (bs : List Byte) (e : Bool) (s : State) : (hostReset bs e s).imageLoaded = State.reset.imageLoaded := rfl
@[simp] theorem hostReset_free (bs : List Byte) (e : Bool) (s : State) : (hostReset bs e s).free = s.free := rfl

@[simp] theorem State.withFetchWord_x (s : State) (nbits w : Nat) : (s.withFetchWord nbits w).x = s.x := rfl
@[simp] theorem State.withFetchWord_pc (s : State) (nbits w : Nat) : (s.withFetchWord nbits w).pc = s.pc := rfl
@[simp] theorem State.withFetchWord_runstate (s : State) (nbits w : Nat) : (s.withFetchWord nbits w).runstate = .running := rfl
@[simp] theorem State.withFetchWord_fault (s : State) (nbits w : Nat) : (s.withFetchWord nbits w).fault = s.fault := rfl
@[simp] theorem State.withFetchWord_heap (s : State) (nbits w : Nat) : (s.withFetchWord nbits w).heap = layWords s.pc.toNat (tableWords nbits w) s.heap := rfl
@[simp] theorem State.withFetchWord_stack (s : State) (nbits w : Nat) : (s.withFetchWord nbits w).stack = s.stack := rfl
@[simp] theorem State.withFetchWord_out (s : State) (nbits w : Nat) : (s.withFetchWord nbits w).out = s.out := rfl
@[simp] theorem State.withFetchWord_inp (s : State) (nbits w : Nat) : (s.withFetchWord nbits w).inp = s.inp := rfl
@[simp] theorem State.withFetchWord_inpEnded (s : State) (nbits w : Nat) : (s.withFetchWord nbits w).inpEnded = s.inpEnded := rfl
@[simp] theorem State.withFetchWord_imageLoaded (s : State) (nbits w : Nat) : (s.withFetchWord nbits w).imageLoaded = s.imageLoaded := rfl
@[simp] theorem State.withFetchWord_free (s : State) (nbits w : Nat) : (s.withFetchWord nbits w).free = s.free := rfl

@[simp] theorem State.reg_mk_pc (s : State) (t : Word) (i : Fin 8) : ({ s with pc := t } : State).reg i = s.reg i := rfl

/-- A register reads what was last written to it. -/
@[simp] theorem State.reg_setReg_same (i : Fin 8) (v : Word) (s : State) : (s.setReg i v).reg i = v := by
  simp [State.reg]

/-- A write to a register leaves the others alone. -/
theorem State.reg_setReg_other {i j : Fin 8} (h : j ≠ i) (v : Word) (s : State) :
    (s.setReg i v).reg j = s.reg j := by
  have h' : i.val ≠ j.val := fun e => h (Fin.ext e.symm)
  simp [State.reg, Vector.getElem_set_ne, h']

@[simp] theorem State.reg_advance (n : Nat) (s : State) (i : Fin 8) : (s.advance n).reg i = s.reg i := rfl
@[simp] theorem State.reg_jumpTo (t : Word) (s : State) (i : Fin 8) : (s.jumpTo t).reg i = s.reg i := rfl
@[simp] theorem State.reg_halt (s : State) (i : Fin 8) : s.halt.reg i = s.reg i := rfl
@[simp] theorem reg_pushWord (v : Word) (s : State) (i : Fin 8) : (pushWord v s).reg i = s.reg i := rfl
@[simp] theorem reg_emit (b : Byte) (s : State) (i : Fin 8) : (emit b s).reg i = s.reg i := rfl
@[simp] theorem reg_takeFault (e : Trap) (s : State) (i : Fin 8) : (takeFault e s).reg i = s.reg i := rfl
@[simp] theorem reg_reset (i : Fin 8) : State.reset.reg i = 0 := by
  simp [State.reg, State.reset]

/-- A fault leaves the data alone (60_exceptions.md R160). -/
theorem sameData_takeFaultAt (a : Word) (e : Trap) (s : State) : s.SameData (takeFaultAt a e s) :=
  ⟨rfl, rfl, rfl, rfl, rfl, rfl⟩

end Sys2Proof.Machine
end

