-- ==== Sys2Proof/Laws/Memory.lean ====
section
/-! SUPPORT. The laws of the heap: a read after a write, and that every operation on the heap keeps its canonical form. -/

namespace Sys2Proof.Machine

@[simp] theorem Memory.read_nil (a : Nat) : Memory.read [] a = 0 := rfl

theorem Memory.read_cons (b : Nat) (w : Word) (m : Memory) (a : Nat) :
    Memory.read ((b, w) :: m) a = if a = b then w else Memory.read m a := rfl

/-- Dropping the entries of one address leaves the reads of the others. -/
theorem Memory.read_filter_other {a k : Nat} (h : k ≠ a) (m : Memory) :
    Memory.read (m.filter fun cell => cell.1 != a) k = m.read k := by
  induction m with
  | nil => rfl
  | cons cell rest ih =>
    obtain ⟨b, w⟩ := cell
    by_cases hb : b = a
    · subst hb
      simp [Memory.read_cons, h, ih]
    · simp [hb, Memory.read_cons, ih]

/-- An address whose entries were dropped reads as unlisted. -/
theorem Memory.read_filter_same (a : Nat) (m : Memory) :
    Memory.read (m.filter fun cell => cell.1 != a) a = 0 := by
  induction m with
  | nil => rfl
  | cons cell rest ih =>
    obtain ⟨b, w⟩ := cell
    by_cases hb : b = a
    · subst hb
      simp [ih]
    · simp [hb, Memory.read_cons, ih, Ne.symm hb]

theorem Memory.read_insert_other {a k : Nat} (h : k ≠ a) (v : Word) (m : Memory) :
    Memory.read (Memory.insert a v m) k = m.read k := by
  induction m with
  | nil => simp [Memory.insert, Memory.read_cons, h]
  | cons cell rest ih =>
    obtain ⟨b, w⟩ := cell
    by_cases hb : a < b <;> simp [Memory.insert, hb, Memory.read_cons, h, ih]

theorem Memory.read_insert_same (a : Nat) (v : Word) (m : Memory) (h : ∀ cell ∈ m, cell.1 ≠ a) :
    Memory.read (Memory.insert a v m) a = v := by
  induction m with
  | nil => simp [Memory.insert, Memory.read_cons]
  | cons cell rest ih =>
    obtain ⟨b, w⟩ := cell
    have hb : a ≠ b := fun e => h (b, w) (by simp) e.symm
    have hrest : ∀ cell ∈ rest, cell.1 ≠ a := fun c hc => h c (by simp [hc])
    by_cases hlt : a < b <;> simp [Memory.insert, hlt, Memory.read_cons, hb, ih hrest]

/-- A read after a write: the cell written holds the word, in any heap. -/
@[simp] theorem Memory.read_write_same (m : Memory) (a : Nat) (v : Word) : (m.write a v).read a = v := by
  unfold Memory.write
  split
  · next h => rw [Memory.read_filter_same, h]; rfl
  · exact Memory.read_insert_same a v _ (by simp)

/-- A read after a write: every other cell is as before, in any heap. -/
theorem Memory.read_write_other {a k : Nat} (h : k ≠ a) (m : Memory) (v : Word) :
    (m.write a v).read k = m.read k := by
  unfold Memory.write
  split
  · exact Memory.read_filter_other h m
  · rw [Memory.read_insert_other h, Memory.read_filter_other h]

theorem Memory.wfFrom_cons (lo a : Nat) (v : Word) (m : Memory) :
    Memory.wfFrom lo ((a, v) :: m) = true ↔ lo ≤ a ∧ a < 32768 ∧ v ≠ 0 ∧ Memory.wfFrom (a + 1) m = true := by
  simp [Memory.wfFrom, Memory.unlisted, and_assoc]

/-- A canonical heap is canonical from any lower address too. -/
theorem Memory.wfFrom_mono {lo lo' : Nat} (h : lo' ≤ lo) {m : Memory} (hm : Memory.wfFrom lo m = true) :
    Memory.wfFrom lo' m = true := by
  cases m with
  | nil => rfl
  | cons cell rest =>
    obtain ⟨a, v⟩ := cell
    rw [Memory.wfFrom_cons] at hm ⊢
    exact ⟨h.trans hm.1, hm.2⟩

theorem Memory.wfFrom_filter (a : Nat) {lo : Nat} {m : Memory} (hm : Memory.wfFrom lo m = true) :
    Memory.wfFrom lo (m.filter fun cell => cell.1 != a) = true := by
  induction m generalizing lo with
  | nil => rfl
  | cons cell rest ih =>
    obtain ⟨b, w⟩ := cell
    rw [Memory.wfFrom_cons] at hm
    obtain ⟨h1, h2, h3, h4⟩ := hm
    by_cases hb : b = a
    · simpa [hb] using Memory.wfFrom_mono (by omega) (ih h4)
    · simpa [hb, Memory.wfFrom_cons] using ⟨h1, h2, h3, ih h4⟩

theorem Memory.wfFrom_insert {a lo : Nat} {v : Word} {m : Memory} (hlo : lo ≤ a) (ha : a < 32768) (hv : v ≠ 0)
    (hm : Memory.wfFrom lo m = true) (hne : ∀ cell ∈ m, cell.1 ≠ a) :
    Memory.wfFrom lo (Memory.insert a v m) = true := by
  induction m generalizing lo with
  | nil => simpa [Memory.insert, Memory.wfFrom, Memory.unlisted, hlo, ha] using hv
  | cons cell rest ih =>
    obtain ⟨b, w⟩ := cell
    have hba : b ≠ a := hne (b, w) (by simp)
    rw [Memory.wfFrom_cons] at hm
    obtain ⟨h1, h2, h3, h4⟩ := hm
    by_cases hlt : a < b
    · simp only [Memory.insert, hlt, if_true, Memory.wfFrom_cons]
      exact ⟨hlo, ha, hv, by omega, h2, h3, h4⟩
    · simp only [Memory.insert, hlt, if_false, Memory.wfFrom_cons]
      exact ⟨h1, h2, h3, ih (by omega) h4 fun c hc => hne c (by simp [hc])⟩

/-- A write below address 32768 keeps the canonical form. -/
theorem Memory.wf_write {m : Memory} (hm : m.wf = true) {a : Nat} (ha : a < 32768) (v : Word) :
    (m.write a v).wf = true := by
  unfold Memory.write Memory.wf
  split
  · exact Memory.wfFrom_filter a hm
  · next h => exact Memory.wfFrom_insert (Nat.zero_le a) ha h (Memory.wfFrom_filter a hm) (by simp)

/-- `MemWrite` keeps the canonical form. -/
theorem memWrite_wf {addr v : Word} {m m' : Memory} (hm : m.wf = true) (h : memWrite addr v m = .ok m') :
    m'.wf = true := by
  unfold memWrite translateAddr at h
  split at h
  · next ha =>
    cases h
    exact Memory.wf_write hm ha v
  · cases h

/-- Laying words keeps the canonical form. -/
theorem layWords_wf {a : Nat} {ws : List Word} {m : Memory} (hm : m.wf = true) : (layWords a ws m).wf = true := by
  induction ws generalizing a m with
  | nil => exact hm
  | cons w rest ih =>
    unfold layWords
    split
    · next ha => exact ih (Memory.wf_write hm ha w)
    · exact hm

/-- Laying words leaves the cells below them alone. -/
theorem layWords_read_below {a k : Nat} (h : k < a) (ws : List Word) (m : Memory) :
    (layWords a ws m).read k = m.read k := by
  induction ws generalizing a m with
  | nil => rfl
  | cons w rest ih =>
    unfold layWords
    split
    · rw [ih (by omega), Memory.read_write_other (by omega)]
    · rfl

/-- Laying words that fit puts word `k` in cell `a + k` and leaves every cell above them alone. -/
theorem layWords_read {a : Nat} {ws : List Word} (h : a + ws.length ≤ 32768) (m : Memory) (k : Nat) :
    (layWords a ws m).read (a + k) = (ws[k]?).getD (m.read (a + k)) := by
  induction ws generalizing a m k with
  | nil => rfl
  | cons w rest ih =>
    simp only [List.length_cons] at h
    rw [layWords, if_pos (by omega)]
    cases k with
    | zero => rw [layWords_read_below (by omega)]; simp
    | succ k =>
      have e : a + (k + 1) = (a + 1) + k := by omega
      rw [e, ih (by omega), Memory.read_write_other (by omega)]
      simp

end Sys2Proof.Machine
end

