-- ==== Sys2Proof/Laws/Ops.lean ====
section
/-! SUPPORT. For each shared operation, one lemma that says once everything it can do; proofs cite these and do not unfold the
operation. -/

namespace Sys2Proof.Machine

/-- Binding a computation that completed. -/
@[simp] theorem except_ok_bind {ε α β : Type} (v : α) (f : α → Except ε β) : (Except.ok v >>= f) = f v := rfl

/-- Binding a computation that raised. -/
@[simp] theorem except_error_bind {ε α β : Type} (e : ε) (f : α → Except ε β) :
    ((Except.error e : Except ε α) >>= f) = .error e := rfl

/-- A bind completes exactly when both parts do. -/
theorem except_bind_eq_ok {ε α β : Type} {x : Except ε α} {f : α → Except ε β} {b : β} :
    (x >>= f) = .ok b ↔ ∃ a, x = .ok a ∧ f a = .ok b := by
  cases x <;> simp

/-- A bind raises what its first part raises, or what its second does after the first completed. -/
theorem except_bind_eq_error {ε α β : Type} {x : Except ε α} {f : α → Except ε β} {e : ε} :
    (x >>= f) = .error e ↔ x = .error e ∨ ∃ a, x = .ok a ∧ f a = .error e := by
  cases x <;> simp

theorem translateAddr_eq_ok {addr : Word} {a : Nat} :
    translateAddr addr = .ok a ↔ addr.toNat < 32768 ∧ a = addr.toNat := by
  unfold translateAddr
  split <;> simp_all [eq_comm]

theorem translateAddr_eq_error {addr : Word} {e : Trap} :
    translateAddr addr = .error e ↔ 32768 ≤ addr.toNat ∧ e = .addressOutOfBounds addr := by
  unfold translateAddr
  split <;> simp_all [eq_comm]

theorem memRead_eq_ok {addr v : Word} {m : Memory} :
    memRead addr m = .ok v ↔ addr.toNat < 32768 ∧ v = m.read addr.toNat := by
  simp only [memRead, except_bind_eq_ok, translateAddr_eq_ok, Except.ok.injEq, eq_comm (a := v)]
  constructor
  · rintro ⟨a, ⟨h, rfl⟩, e⟩
    exact ⟨h, e⟩
  · rintro ⟨h, e⟩
    exact ⟨_, ⟨h, rfl⟩, e⟩

theorem memRead_eq_error {addr : Word} {m : Memory} {e : Trap} :
    memRead addr m = .error e ↔ 32768 ≤ addr.toNat ∧ e = .addressOutOfBounds addr := by
  simp [memRead, except_bind_eq_error, translateAddr_eq_error]

theorem memWrite_eq_ok {addr v : Word} {m m' : Memory} :
    memWrite addr v m = .ok m' ↔ addr.toNat < 32768 ∧ m' = m.write addr.toNat v := by
  simp only [memWrite, except_bind_eq_ok, translateAddr_eq_ok, Except.ok.injEq, eq_comm (a := m')]
  constructor
  · rintro ⟨a, ⟨h, rfl⟩, e⟩
    exact ⟨h, e⟩
  · rintro ⟨h, e⟩
    exact ⟨_, ⟨h, rfl⟩, e⟩

theorem memWrite_eq_error {addr v : Word} {m : Memory} {e : Trap} :
    memWrite addr v m = .error e ↔ 32768 ≤ addr.toNat ∧ e = .addressOutOfBounds addr := by
  simp [memWrite, except_bind_eq_error, translateAddr_eq_error]

theorem readRegister_fin (i : Fin 8) (s : State) : readRegister i.val s = .ok (s.reg i) := by
  simp [readRegister]

theorem writeRegister_fin (i : Fin 8) (v : Word) (s : State) :
    writeRegister i.val v s = .ok (s.setReg i v) := by
  simp [writeRegister]

/-- A register write completes exactly on a register's index. -/
theorem writeRegister_eq_ok {idx : Nat} {v : Word} {s t : State} :
    writeRegister idx v s = .ok t ↔ ∃ i : Fin 8, idx = i.val ∧ t = s.setReg i v := by
  constructor
  · intro h
    unfold writeRegister at h
    split at h
    · next hi => exact ⟨⟨idx, hi⟩, rfl, by simpa using h.symm⟩
    · cases h
  · rintro ⟨i, rfl, rfl⟩
    exact writeRegister_fin i v s

theorem popWord_cons {s : State} {v : Word} {rest : List Word} (h : s.stack = v :: rest) :
    popWord s = .ok (v, { s with stack := rest }) := by
  simp [popWord, h]

theorem popWord_nil {s : State} (h : s.stack = []) : popWord s = .error .stackUnderflow := by
  simp [popWord, h]

/-- A pop takes the top of the stack and nothing else, or the stack was empty. -/
theorem popWord_cases (s : State) :
    (s.stack = [] ∧ popWord s = .error .stackUnderflow) ∨
      ∃ v rest, s.stack = v :: rest ∧ popWord s = .ok (v, { s with stack := rest }) := by
  cases h : s.stack with
  | nil => exact .inl ⟨rfl, popWord_nil h⟩
  | cons v rest => exact .inr ⟨v, rest, rfl, popWord_cons h⟩

/-- The three answers of the input port. -/
theorem nextInput_cases (s : State) :
    (s.inp = [] ∧ s.inpEnded = false ∧ nextInput s = none) ∨
      (s.inp = [] ∧ s.inpEnded = true ∧ nextInput s = some (.error .inputExhausted)) ∨
      ∃ b rest, s.inp = b :: rest ∧ nextInput s = some (.ok (b, { s with inp := rest })) := by
  cases h : s.inp with
  | nil => cases he : s.inpEnded <;> simp [nextInput, h, he]
  | cons b rest => simp [nextInput, h]

@[simp] theorem conclude_ok (s t : State) : conclude s (.ok t) = .next t := rfl

@[simp] theorem conclude_error (s : State) (e : Trap) : conclude s (.error e) = .next (takeFault e s) := rfl

/-- How a step concludes: with the effect's state, or with the fault it raised. -/
theorem conclude_eq_next {s t : State} {r : Except Trap State} :
    conclude s r = .next t ↔ r = .ok t ∨ ∃ e, r = .error e ∧ t = takeFault e s := by
  cases r with
  | ok u => simp
  | error e => simp [eq_comm]

end Sys2Proof.Machine
end

