-- ==== Sys2Proof/Laws/Decode.lean ====
section
/-! SUPPORT. The opcode table against the encoder, row by row, and what the decode algorithm does with any reader and on the
heap; proofs split on the four formats and not on the 22 rows. -/

namespace Sys2Proof

/-- The operand count of a format (30_encoding.md R70). -/
def Format.arity : Format → Nat
  | .f0 _ => 0
  | .f1 _ => 1
  | .f2 _ => 2
  | .f3 _ => 3

/-- The instruction a format builds from its operand words, read in order from position 1. -/
def Format.build (f : Format) (word : Nat → Word) : Instr :=
  match f with
  | .f0 mk => mk
  | .f1 mk => mk (word 1)
  | .f2 mk => mk (word 1) (word 2)
  | .f3 mk => mk (word 1) (word 2) (word 3)

/-- A row agrees with the encoder: what it builds is encoded as its opcode word and its operand words. -/
def Format.Encodes (op : Word) : Format → Prop
  | .f0 mk => encode mk = [op]
  | .f1 mk => ∀ a, encode (mk a) = [op, a]
  | .f2 mk => ∀ a b, encode (mk a b) = [op, a, b]
  | .f3 mk => ∀ a b c, encode (mk a b c) = [op, a, b, c]

/-- An opcode word selects no row exactly when it is above 21. -/
theorem formatOf_eq_none {op : Word} : formatOf op = none ↔ 21 < op.toNat := by
  rw [formatOf, List.getElem?_eq_none_iff]
  simp [opcodeTable]
  omega

/-- Every row of the table agrees with the encoder. -/
theorem formatOf_encodes {op : Word} {f : Format} (h : formatOf op = some f) : f.Encodes op := by
  have rows : ∀ n : Nat, n < 22 → ∀ g, opcodeTable[n]? = some g → g.Encodes (BitVec.ofNat 16 n) := by
    intro n hn g hg
    interval_cases n <;> cases hg <;> simp [Format.Encodes, encode]
  have hlt : op.toNat < 22 := by
    by_contra hc
    rw [formatOf_eq_none.mpr (by omega)] at h
    cases h
  simpa using rows op.toNat hlt f h

@[simp] theorem length_encode (i : Instr) : (encode i).length = instrLength i := by
  cases i <;> rfl

/-- The words a row's instruction is encoded as. -/
theorem Format.Encodes.words {op : Word} {f : Format} (h : f.Encodes op) (word : Nat → Word) (h0 : word 0 = op) :
    encode (f.build word) = (List.range (f.arity + 1)).map word := by
  cases f <;> simp_all [Format.Encodes, Format.build, Format.arity, List.range, List.range.loop]

/-- A row's instruction is one word longer than its operand count. -/
theorem Format.Encodes.length {op : Word} {f : Format} (h : f.Encodes op) (word : Nat → Word) :
    instrLength (f.build word) = f.arity + 1 := by
  rw [← length_encode]
  cases f <;> simp_all [Format.Encodes, Format.build, Format.arity]

section
variable {ε : Type} {read : Nat → Except ε Word} {unknown : Word → ε}

/-- The opcode read fails. -/
theorem decodeWith_read_error {e : ε} (h : read 0 = .error e) : decodeWith read unknown = .error e := by
  simp only [decodeWith, h]
  rfl

/-- The opcode word is unknown. -/
theorem decodeWith_unknown {op : Word} (h : read 0 = .ok op) (hop : 21 < op.toNat) :
    decodeWith read unknown = .error (unknown op) := by
  simp only [decodeWith, h, Machine.except_ok_bind, formatOf_eq_none.mpr hop]

/-- All the words of the row are read. -/
theorem decodeWith_complete {op : Word} {f : Format} {word : Nat → Word} (h : read 0 = .ok op)
    (hf : formatOf op = some f) (hr : ∀ k, 1 ≤ k → k ≤ f.arity → read k = .ok (word k)) :
    decodeWith read unknown = .ok (f.build word) := by
  cases f with
  | f0 mk => simp [decodeWith, h, hf, Format.build]
  | f1 mk => simp [decodeWith, h, hf, Format.build, hr 1 (by decide) (by simp [Format.arity])]
  | f2 mk =>
    simp [decodeWith, h, hf, Format.build, hr 1 (by decide) (by simp [Format.arity]),
      hr 2 (by decide) (by simp [Format.arity])]
  | f3 mk =>
    simp [decodeWith, h, hf, Format.build, hr 1 (by decide) (by simp [Format.arity]),
      hr 2 (by decide) (by simp [Format.arity]), hr 3 (by decide) (by simp [Format.arity])]

/-- Operand `k` is the first that is not read. -/
theorem decodeWith_operand_error {op : Word} {f : Format} {word : Nat → Word} {k : Nat} {e : ε} (h : read 0 = .ok op)
    (hf : formatOf op = some f) (hk : 1 ≤ k) (hk' : k ≤ f.arity) (hr : ∀ j, 1 ≤ j → j < k → read j = .ok (word j))
    (he : read k = .error e) : decodeWith read unknown = .error e := by
  have h1 : 1 < k → read 1 = .ok (word 1) := hr 1 (by decide)
  have h2 : 2 < k → read 2 = .ok (word 2) := hr 2 (by decide)
  cases f <;> simp only [Format.arity] at hk'
  · omega
  · have e1 : k = 1 := by omega
    subst e1
    simp [decodeWith, h, hf, he]
  · have e12 : k = 1 ∨ k = 2 := by omega
    rcases e12 with rfl | rfl <;> simp [decodeWith, h, hf, he, h1]
  · have e123 : k = 1 ∨ k = 2 ∨ k = 3 := by omega
    rcases e123 with rfl | rfl | rfl <;> simp [decodeWith, h, hf, he, h1, h2]

end

end Sys2Proof

namespace Sys2Proof.Machine

/-- An address that does not run past the heap's end is the exact sum. -/
theorem toNat_add_ofNat {pc : Word} {k : Nat} (h : pc.toNat + k ≤ 32768) :
    (pc + BitVec.ofNat 16 k).toNat = pc.toNat + k := by
  simp
  omega

/-- A fetch inside the heap. -/
theorem fetch_ok {pc : Word} {k : Nat} (h : pc.toNat + k < 32768) (m : Memory) :
    memRead (pc + BitVec.ofNat 16 k) m = .ok (m.read (pc.toNat + k)) := by
  rw [memRead_eq_ok, toNat_add_ofNat (by omega)]
  exact ⟨h, rfl⟩

/-- A fetch at the first address past the heap. -/
theorem fetch_past_end {pc : Word} {k : Nat} (h : pc.toNat + k = 32768) (m : Memory) :
    memRead (pc + BitVec.ofNat 16 k) m = .error (.addressOutOfBounds 32768) := by
  have e : pc + BitVec.ofNat 16 k = 32768 :=
    BitVec.eq_of_toNat_eq (by rw [toNat_add_ofNat (by omega), h]; rfl)
  rw [e]
  exact memRead_eq_error.mpr ⟨by decide, rfl⟩

/-- Everything the heap decoder can do (30_encoding.md R77, R78): the opcode fetch fails; the opcode is unknown; an
operand fetch runs past the heap; or the row's instruction is built from the words in the cells. -/
theorem decodeAt_cases (pc : Word) (m : Memory) :
    (32768 ≤ pc.toNat ∧ decodeAt pc m = .error (.addressOutOfBounds pc)) ∨
    (pc.toNat < 32768 ∧ 21 < (m.read pc.toNat).toNat ∧
      decodeAt pc m = .error (.unknownOpcode (m.read pc.toNat))) ∨
    ∃ f, pc.toNat < 32768 ∧ formatOf (m.read pc.toNat) = some f ∧
      ((32768 ≤ pc.toNat + f.arity ∧ decodeAt pc m = .error (.addressOutOfBounds 32768)) ∨
        (pc.toNat + f.arity < 32768 ∧
          decodeAt pc m =
            .ok (f.build fun k => m.read (pc.toNat + k), pc + BitVec.ofNat 16 (f.arity + 1)))) := by
  by_cases hpc : pc.toNat < 32768
  · have h0 : memRead (pc + BitVec.ofNat 16 0) m = .ok (m.read pc.toNat) := fetch_ok hpc m
    cases hf : formatOf (m.read pc.toNat) with
    | none =>
      have hop := formatOf_eq_none.mp hf
      refine .inr (.inl ⟨hpc, hop, ?_⟩)
      rw [decodeAt, decodeWith_unknown h0 hop]
      rfl
    | some f =>
      refine .inr (.inr ⟨f, hpc, rfl, ?_⟩)
      by_cases hfit : pc.toNat + f.arity < 32768
      · refine .inr ⟨hfit, ?_⟩
        rw [decodeAt, decodeWith_complete (read := fun k => memRead (pc + BitVec.ofNat 16 k) m) h0 hf
          fun k _ hk => fetch_ok (by omega) m, except_ok_bind, (formatOf_encodes hf).length]
      · refine .inl ⟨by omega, ?_⟩
        rw [decodeAt, decodeWith_operand_error (read := fun k => memRead (pc + BitVec.ofNat 16 k) m)
          (k := 32768 - pc.toNat) h0 hf (by omega) (by omega)
          (fun j _ hj => fetch_ok (by omega) m) (fetch_past_end (by omega) m)]
        rfl
  · have h0 : memRead (pc + BitVec.ofNat 16 0) m = .error (.addressOutOfBounds pc) := by
      rw [memRead_eq_error]
      simp
      omega
    refine .inl ⟨by omega, ?_⟩
    rw [decodeAt, decodeWith_read_error h0]
    rfl

/-- A decode that succeeds read an opcode word inside the heap. -/
theorem pc_lt_of_decodeAt_ok {pc next : Word} {m : Memory} {i : Instr} (h : decodeAt pc m = .ok (i, next)) :
    pc.toNat < 32768 := by
  rcases decodeAt_cases pc m with ⟨-, h'⟩ | ⟨hpc, -, -⟩ | ⟨f, hpc, -, -⟩
  · rw [h'] at h
    cases h
  · exact hpc
  · exact hpc

end Sys2Proof.Machine
end

