-- ==== Sys2Proof/Laws/Operands.lean ====
section
/-! SUPPORT. What resolving an operand word can do, and what the shared shapes of effect can do. -/

namespace Sys2Proof.Machine

theorem kind_of_le {w : Word} (h : w.toNat ≤ 32767) : kind w = .literal := if_pos h

theorem kind_of_between {w : Word} (h : 32768 ≤ w.toNat) (h' : w.toNat ≤ 32775) : kind w = .register :=
  (if_neg (by omega)).trans (if_pos h')

theorem kind_of_gt {w : Word} (h : 32775 < w.toNat) : kind w = .invalid :=
  (if_neg (by omega)).trans (if_neg (by omega))

/-- A literal is its own value. -/
theorem val_literal {w : Word} (h : w.toNat ≤ 32767) (s : State) : val w s = .ok w := by
  simp only [val, kind_of_le h]

/-- A register word's value is the register's content. -/
theorem val_register {w : Word} {i : Fin 8} (h : w.toNat = 32768 + i.val) (s : State) : val w s = .ok (s.reg i) := by
  have e : w.toNat - 32768 = i.val := by omega
  simp only [val, kind_of_between (w := w) (by omega) (by omega), e, readRegister_fin]

/-- A word above 32775 has no value. -/
theorem val_invalid {w : Word} (h : 32775 < w.toNat) (s : State) : val w s = .error (.invalidOperand w) := by
  simp only [val, kind_of_gt h]

/-- A register word as a destination is the register's index. -/
theorem dst_register {w : Word} {n : Nat} (hn : n < 8) (h : w.toNat = 32768 + n) : dst w = .ok n := by
  simp only [dst, kind_of_between (w := w) (by omega) (by omega), h, Nat.add_sub_cancel_left]

/-- Any other word is no destination. -/
theorem dst_illegal {w : Word} (h : w.toNat < 32768 ∨ 32775 < w.toNat) : dst w = .error (.notARegister w) := by
  rcases h with h | h
  · simp only [dst, kind_of_le (w := w) (by omega)]
  · simp only [dst, kind_of_gt h]

/-- Every word is a literal, a register word or invalid. -/
theorem word_cases (w : Word) :
    w.toNat ≤ 32767 ∨ (∃ i : Fin 8, w.toNat = 32768 + i.val) ∨ 32775 < w.toNat := by
  by_cases h1 : w.toNat ≤ 32767
  · exact .inl h1
  · by_cases h2 : w.toNat ≤ 32775
    · exact .inr (.inl ⟨⟨w.toNat - 32768, by omega⟩, by simp only; omega⟩)
    · exact .inr (.inr (by omega))

/-- A value operand resolves to itself below 32768 and to a register's content at 32768 + index. -/
theorem val_eq_ok {w v : Word} {s : State} :
    val w s = .ok v ↔
      (w.toNat ≤ 32767 ∧ v = w) ∨ ∃ i : Fin 8, w.toNat = 32768 + i.val ∧ v = s.reg i := by
  constructor
  · intro h
    rcases word_cases w with hw | ⟨i, hw⟩ | hw
    · exact .inl ⟨hw, Except.ok.inj (h.symm.trans (val_literal hw s))⟩
    · exact .inr ⟨i, hw, Except.ok.inj (h.symm.trans (val_register hw s))⟩
    · rw [val_invalid hw] at h
      cases h
  · rintro (⟨hw, rfl⟩ | ⟨i, hw, rfl⟩)
    · exact val_literal hw s
    · exact val_register hw s

/-- A value operand faults only as `InvalidOperand`, and exactly above 32775. -/
theorem val_eq_error {w : Word} {s : State} {e : Trap} :
    val w s = .error e ↔ 32775 < w.toNat ∧ e = .invalidOperand w := by
  constructor
  · intro h
    rcases word_cases w with hw | ⟨i, hw⟩ | hw
    · rw [val_literal hw] at h
      cases h
    · rw [val_register hw] at h
      cases h
    · exact ⟨hw, Except.error.inj (h.symm.trans (val_invalid hw s))⟩
  · rintro ⟨hw, rfl⟩
    exact val_invalid hw s

/-- A destination operand resolves to the index of a register. -/
theorem dst_eq_ok {w : Word} {n : Nat} : dst w = .ok n ↔ n < 8 ∧ w.toNat = 32768 + n := by
  constructor
  · intro h
    rcases word_cases w with hw | ⟨i, hw⟩ | hw
    · rw [dst_illegal (.inl (by omega))] at h
      cases h
    · rw [dst_register i.isLt hw] at h
      cases h
      exact ⟨i.isLt, hw⟩
    · rw [dst_illegal (.inr hw)] at h
      cases h
  · rintro ⟨hn, hw⟩
    exact dst_register hn hw

/-- A destination operand faults only as `NotARegister`, and exactly outside 32768..32775. -/
theorem dst_eq_error {w : Word} {e : Trap} :
    dst w = .error e ↔ (w.toNat < 32768 ∨ 32775 < w.toNat) ∧ e = .notARegister w := by
  constructor
  · intro h
    rcases word_cases w with hw | ⟨i, hw⟩ | hw
    · exact ⟨.inl (by omega), Except.error.inj (h.symm.trans (dst_illegal (.inl (by omega))))⟩
    · rw [dst_register i.isLt hw] at h
      cases h
    · exact ⟨.inr hw, Except.error.inj (h.symm.trans (dst_illegal (.inr hw)))⟩
  · rintro ⟨hw, rfl⟩
    exact dst_illegal hw

/-- A three-word effect completes exactly when its operands resolve and its function answers, and then it writes the one
register its destination names. -/
theorem unaryEffect_eq_ok {f : Word → Except Trap Word} {a b : Word} {s t : State} :
    unaryEffect f a b s = .ok t ↔
      ∃ (i : Fin 8) (vb v : Word), dst a = .ok i.val ∧ val b s = .ok vb ∧ f vb = .ok v ∧
        t = (s.advance 3).setReg i v := by
  simp only [unaryEffect, except_bind_eq_ok, writeRegister_eq_ok]
  constructor
  · rintro ⟨_, ha, vb, hb, v, hf, i, rfl, rfl⟩
    exact ⟨i, vb, v, ha, hb, hf, rfl⟩
  · rintro ⟨i, vb, v, ha, hb, hf, rfl⟩
    exact ⟨_, ha, vb, hb, v, hf, i, rfl, rfl⟩

/-- A three-word effect raises what its destination, its value or its function raises, in that order. -/
theorem unaryEffect_eq_error {f : Word → Except Trap Word} {a b : Word} {s : State} {e : Trap} :
    unaryEffect f a b s = .error e ↔
      dst a = .error e ∨ (∃ i, dst a = .ok i ∧ val b s = .error e) ∨
        ∃ i vb, dst a = .ok i ∧ val b s = .ok vb ∧ f vb = .error e := by
  simp only [unaryEffect, except_bind_eq_error]
  constructor
  · rintro (h | ⟨i, ha, h | ⟨vb, hb, h | ⟨v, -, h⟩⟩⟩)
    · exact .inl h
    · exact .inr (.inl ⟨i, ha, h⟩)
    · exact .inr (.inr ⟨i, vb, ha, hb, h⟩)
    · simp [writeRegister, (dst_eq_ok.mp ha).1] at h
  · rintro (h | ⟨i, ha, h⟩ | ⟨i, vb, ha, hb, h⟩)
    · exact .inl h
    · exact .inr ⟨i, ha, .inl h⟩
    · exact .inr ⟨i, ha, .inr ⟨vb, hb, .inl h⟩⟩

/-- A four-word effect completes exactly when its operands resolve and its function answers, and then it writes the one
register its destination names. -/
theorem binaryEffect_eq_ok {f : Word → Word → Except Trap Word} {a b c : Word} {s t : State} :
    binaryEffect f a b c s = .ok t ↔
      ∃ (i : Fin 8) (vb vc v : Word), dst a = .ok i.val ∧ val b s = .ok vb ∧ val c s = .ok vc ∧
        f vb vc = .ok v ∧ t = (s.advance 4).setReg i v := by
  simp only [binaryEffect, except_bind_eq_ok, writeRegister_eq_ok]
  constructor
  · rintro ⟨_, ha, vb, hb, vc, hc, v, hf, i, rfl, rfl⟩
    exact ⟨i, vb, vc, v, ha, hb, hc, hf, rfl⟩
  · rintro ⟨i, vb, vc, v, ha, hb, hc, hf, rfl⟩
    exact ⟨_, ha, vb, hb, vc, hc, v, hf, i, rfl, rfl⟩

/-- A four-word effect raises what its destination, its values or its function raise, in that order. -/
theorem binaryEffect_eq_error {f : Word → Word → Except Trap Word} {a b c : Word} {s : State} {e : Trap} :
    binaryEffect f a b c s = .error e ↔
      dst a = .error e ∨ (∃ i, dst a = .ok i ∧ val b s = .error e) ∨
        (∃ i vb, dst a = .ok i ∧ val b s = .ok vb ∧ val c s = .error e) ∨
        ∃ i vb vc, dst a = .ok i ∧ val b s = .ok vb ∧ val c s = .ok vc ∧ f vb vc = .error e := by
  simp only [binaryEffect, except_bind_eq_error]
  constructor
  · rintro (h | ⟨i, ha, h | ⟨vb, hb, h | ⟨vc, hc, h | ⟨v, -, h⟩⟩⟩⟩)
    · exact .inl h
    · exact .inr (.inl ⟨i, ha, h⟩)
    · exact .inr (.inr (.inl ⟨i, vb, ha, hb, h⟩))
    · exact .inr (.inr (.inr ⟨i, vb, vc, ha, hb, hc, h⟩))
    · simp [writeRegister, (dst_eq_ok.mp ha).1] at h
  · rintro (h | ⟨i, ha, h⟩ | ⟨i, vb, ha, hb, h⟩ | ⟨i, vb, vc, ha, hb, hc, h⟩)
    · exact .inl h
    · exact .inr ⟨i, ha, .inl h⟩
    · exact .inr ⟨i, ha, .inr ⟨vb, hb, .inl h⟩⟩
    · exact .inr ⟨i, ha, .inr ⟨vb, hb, .inr ⟨vc, hc, .inl h⟩⟩⟩

end Sys2Proof.Machine
end

