-- ==== Sys2Proof/Laws/Exec.lean ====
section
/-! SUPPORT. One inversion lemma for each instruction: everything `exec` can answer for it, a fault or the completed state. -/

namespace Sys2Proof.Machine

/-- A trap whose information word is one its kind can carry (60_exceptions.md R151): what every raised fault satisfies. -/
def Trap.Real : Trap → Prop
  | .unknownOpcode op => 21 < op.toNat
  | .addressOutOfBounds addr => 32768 ≤ addr.toNat
  | .registerIndexOutOfBounds => False
  | .notARegister w => w.toNat < 32768 ∨ 32775 < w.toNat
  | .invalidOperand w => 32775 < w.toNat
  | .stackUnderflow => True
  | .divisionByZero => True
  | .inputExhausted => True

/-- The step took a fault of one of these kinds. -/
def TookFault (ks : List FaultKind) (s t : State) : Prop := ∃ e : Trap, e.Real ∧ e.kind ∈ ks ∧ t = takeFault e s

theorem dst_error_real {w : Word} {e : Trap} (h : dst w = .error e) : e.Real ∧ e.kind = .notARegister := by
  obtain ⟨hw, rfl⟩ := dst_eq_error.mp h
  exact ⟨hw, rfl⟩

theorem val_error_real {w : Word} {s : State} {e : Trap} (h : val w s = .error e) :
    e.Real ∧ e.kind = .invalidOperand := by
  obtain ⟨hw, rfl⟩ := val_eq_error.mp h
  exact ⟨hw, rfl⟩

/-- A four-word instruction whose function raises only real traps of the kinds `ks`. -/
theorem binary_next {f : Word → Word → Except Trap Word} {ks : List FaultKind} {a b c : Word} {s t : State}
    (hf : ∀ vb vc e, f vb vc = .error e → e.Real ∧ e.kind ∈ ks)
    (h : conclude s (binaryEffect f a b c s) = .next t) :
    TookFault (.notARegister :: .invalidOperand :: ks) s t ∨
      ∃ (j : Fin 8) (vb vc v : Word), a.toNat = 32768 + j.val ∧ val b s = .ok vb ∧ val c s = .ok vc ∧
        f vb vc = .ok v ∧ t = (s.advance 4).setReg j v := by
  replace h := conclude_eq_next.mp h
  rcases h with h | ⟨e, h, rfl⟩
  · obtain ⟨j, vb, vc, v, ha, hb, hc, hv, rfl⟩ := binaryEffect_eq_ok.mp h
    exact .inr ⟨j, vb, vc, v, (dst_eq_ok.mp ha).2, hb, hc, hv, rfl⟩
  · refine .inl ⟨e, ?_, ?_, rfl⟩ <;>
    rcases binaryEffect_eq_error.mp h with h | ⟨_, _, h⟩ | ⟨_, _, _, _, h⟩ | ⟨_, vb, vc, _, _, _, h⟩
    · exact (dst_error_real h).1
    · exact (val_error_real h).1
    · exact (val_error_real h).1
    · exact (hf vb vc e h).1
    · simp [(dst_error_real h).2]
    · simp [(val_error_real h).2]
    · simp [(val_error_real h).2]
    · simp [(hf vb vc e h).2]

/-- A three-word instruction whose function raises only real traps of the kinds `ks`. -/
theorem unary_next {f : Word → Except Trap Word} {ks : List FaultKind} {a b : Word} {s t : State}
    (hf : ∀ vb e, f vb = .error e → e.Real ∧ e.kind ∈ ks)
    (h : conclude s (unaryEffect f a b s) = .next t) :
    TookFault (.notARegister :: .invalidOperand :: ks) s t ∨
      ∃ (j : Fin 8) (vb v : Word), a.toNat = 32768 + j.val ∧ val b s = .ok vb ∧ f vb = .ok v ∧
        t = (s.advance 3).setReg j v := by
  replace h := conclude_eq_next.mp h
  rcases h with h | ⟨e, h, rfl⟩
  · obtain ⟨j, vb, v, ha, hb, hv, rfl⟩ := unaryEffect_eq_ok.mp h
    exact .inr ⟨j, vb, v, (dst_eq_ok.mp ha).2, hb, hv, rfl⟩
  · refine .inl ⟨e, ?_, ?_, rfl⟩ <;>
    rcases unaryEffect_eq_error.mp h with h | ⟨_, _, h⟩ | ⟨_, vb, _, _, h⟩
    · exact (dst_error_real h).1
    · exact (val_error_real h).1
    · exact (hf vb e h).1
    · simp [(dst_error_real h).2]
    · simp [(val_error_real h).2]
    · simp [(hf vb e h).2]

/-- Everything `EQ` can answer. -/
theorem execEq_next {a b c : Word} {s t : State} (h : exec (.eq a b c) s = .next t) :
    TookFault [.notARegister, .invalidOperand] s t ∨
      ∃ (j : Fin 8) (vb vc : Word), a.toNat = 32768 + j.val ∧ val b s = .ok vb ∧ val c s = .ok vc ∧
        t = (s.advance 4).setReg j (compareEq vb vc) := by
  rcases binary_next (ks := []) (fun _ _ _ he => by cases he) h with h | ⟨j, vb, vc, v, ha, hb, hc, hv, rfl⟩
  · exact .inl h
  · cases hv
    exact .inr ⟨j, vb, vc, ha, hb, hc, rfl⟩

/-- Everything `GT` can answer. -/
theorem execGt_next {a b c : Word} {s t : State} (h : exec (.gt a b c) s = .next t) :
    TookFault [.notARegister, .invalidOperand] s t ∨
      ∃ (j : Fin 8) (vb vc : Word), a.toNat = 32768 + j.val ∧ val b s = .ok vb ∧ val c s = .ok vc ∧
        t = (s.advance 4).setReg j (compareGt vb vc) := by
  rcases binary_next (ks := []) (fun _ _ _ he => by cases he) h with h | ⟨j, vb, vc, v, ha, hb, hc, hv, rfl⟩
  · exact .inl h
  · cases hv
    exact .inr ⟨j, vb, vc, ha, hb, hc, rfl⟩

/-- Everything `ADD` can answer. -/
theorem execAdd_next {a b c : Word} {s t : State} (h : exec (.add a b c) s = .next t) :
    TookFault [.notARegister, .invalidOperand] s t ∨
      ∃ (j : Fin 8) (vb vc : Word), a.toNat = 32768 + j.val ∧ val b s = .ok vb ∧ val c s = .ok vc ∧
        t = (s.advance 4).setReg j (aluAdd vb vc) := by
  rcases binary_next (ks := []) (fun _ _ _ he => by cases he) h with h | ⟨j, vb, vc, v, ha, hb, hc, hv, rfl⟩
  · exact .inl h
  · cases hv
    exact .inr ⟨j, vb, vc, ha, hb, hc, rfl⟩

/-- Everything `MULT` can answer. -/
theorem execMult_next {a b c : Word} {s t : State} (h : exec (.mult a b c) s = .next t) :
    TookFault [.notARegister, .invalidOperand] s t ∨
      ∃ (j : Fin 8) (vb vc : Word), a.toNat = 32768 + j.val ∧ val b s = .ok vb ∧ val c s = .ok vc ∧
        t = (s.advance 4).setReg j (aluMult vb vc) := by
  rcases binary_next (ks := []) (fun _ _ _ he => by cases he) h with h | ⟨j, vb, vc, v, ha, hb, hc, hv, rfl⟩
  · exact .inl h
  · cases hv
    exact .inr ⟨j, vb, vc, ha, hb, hc, rfl⟩

/-- Everything `AND` can answer. -/
theorem execAnd_next {a b c : Word} {s t : State} (h : exec (.and a b c) s = .next t) :
    TookFault [.notARegister, .invalidOperand] s t ∨
      ∃ (j : Fin 8) (vb vc : Word), a.toNat = 32768 + j.val ∧ val b s = .ok vb ∧ val c s = .ok vc ∧
        t = (s.advance 4).setReg j (aluAnd vb vc) := by
  rcases binary_next (ks := []) (fun _ _ _ he => by cases he) h with h | ⟨j, vb, vc, v, ha, hb, hc, hv, rfl⟩
  · exact .inl h
  · cases hv
    exact .inr ⟨j, vb, vc, ha, hb, hc, rfl⟩

/-- Everything `OR` can answer. -/
theorem execOr_next {a b c : Word} {s t : State} (h : exec (.or a b c) s = .next t) :
    TookFault [.notARegister, .invalidOperand] s t ∨
      ∃ (j : Fin 8) (vb vc : Word), a.toNat = 32768 + j.val ∧ val b s = .ok vb ∧ val c s = .ok vc ∧
        t = (s.advance 4).setReg j (aluOr vb vc) := by
  rcases binary_next (ks := []) (fun _ _ _ he => by cases he) h with h | ⟨j, vb, vc, v, ha, hb, hc, hv, rfl⟩
  · exact .inl h
  · cases hv
    exact .inr ⟨j, vb, vc, ha, hb, hc, rfl⟩

/-- Everything `MOD` can answer. -/
theorem execMod_next {a b c : Word} {s t : State} (h : exec (.mod a b c) s = .next t) :
    TookFault [.notARegister, .invalidOperand, .divisionByZero] s t ∨
      ∃ (j : Fin 8) (vb vc : Word), a.toNat = 32768 + j.val ∧ val b s = .ok vb ∧ val c s = .ok vc ∧ vc ≠ 0 ∧
        t = (s.advance 4).setReg j (reduce (vb.toNat % vc.toNat)) := by
  have hf : ∀ vb vc e, aluMod vb vc = .error e → e.Real ∧ e.kind ∈ [FaultKind.divisionByZero] := by
    intro vb vc e he
    unfold aluMod at he
    split at he <;> cases he
    simp [Trap.Real, Trap.kind]
  rcases binary_next hf h with h | ⟨j, vb, vc, v, ha, hb, hc, hv, rfl⟩
  · exact .inl h
  · unfold aluMod at hv
    split at hv
    · cases hv
    · next hne =>
      cases hv
      exact .inr ⟨j, vb, vc, ha, hb, hc, hne, rfl⟩

/-- Everything `SET` can answer. -/
theorem execSet_next {a b : Word} {s t : State} (h : exec (.set a b) s = .next t) :
    TookFault [.notARegister, .invalidOperand] s t ∨
      ∃ (j : Fin 8) (vb : Word), a.toNat = 32768 + j.val ∧ val b s = .ok vb ∧ t = (s.advance 3).setReg j vb := by
  rcases unary_next (ks := []) (fun _ _ he => by cases he) h with h | ⟨j, vb, v, ha, hb, hv, rfl⟩
  · exact .inl h
  · cases hv
    exact .inr ⟨j, vb, ha, hb, rfl⟩

/-- Everything `NOT` can answer. -/
theorem execNot_next {a b : Word} {s t : State} (h : exec (.not a b) s = .next t) :
    TookFault [.notARegister, .invalidOperand] s t ∨
      ∃ (j : Fin 8) (vb : Word), a.toNat = 32768 + j.val ∧ val b s = .ok vb ∧
        t = (s.advance 3).setReg j (aluNot vb) := by
  rcases unary_next (ks := []) (fun _ _ he => by cases he) h with h | ⟨j, vb, v, ha, hb, hv, rfl⟩
  · exact .inl h
  · cases hv
    exact .inr ⟨j, vb, ha, hb, rfl⟩

/-- Everything `RMEM` can answer. -/
theorem execRmem_next {a b : Word} {s t : State} (h : exec (.rmem a b) s = .next t) :
    TookFault [.notARegister, .invalidOperand, .addressOutOfBounds] s t ∨
      ∃ (j : Fin 8) (addr : Word), a.toNat = 32768 + j.val ∧ val b s = .ok addr ∧ addr.toNat < 32768 ∧
        t = (s.advance 3).setReg j (s.heap.read addr.toNat) := by
  have hf : ∀ vb e, memRead vb s.heap = .error e → e.Real ∧ e.kind ∈ [FaultKind.addressOutOfBounds] := by
    intro vb e he
    obtain ⟨hlt, rfl⟩ := memRead_eq_error.mp he
    simp [Trap.Real, Trap.kind, hlt]
  rcases unary_next hf h with h | ⟨j, addr, v, ha, hb, hv, rfl⟩
  · exact .inl h
  · obtain ⟨hlt, rfl⟩ := memRead_eq_ok.mp hv
    exact .inr ⟨j, addr, ha, hb, hlt, rfl⟩

/-- Everything `WMEM` can answer. -/
theorem execWmem_next {a b : Word} {s t : State} (h : exec (.wmem a b) s = .next t) :
    TookFault [.invalidOperand, .addressOutOfBounds] s t ∨
      ∃ addr v : Word, val a s = .ok addr ∧ val b s = .ok v ∧ addr.toNat < 32768 ∧
        t = { s.advance 3 with heap := s.heap.write addr.toNat v } := by
  replace h := conclude_eq_next.mp h
  rcases h with h | ⟨e, h, rfl⟩
  · simp only [wmemEffect, except_bind_eq_ok, memWrite_eq_ok] at h
    obtain ⟨addr, ha, v, hb, m, ⟨hlt, rfl⟩, ht⟩ := h
    exact .inr ⟨addr, v, ha, hb, hlt, (Except.ok.inj ht).symm⟩
  · simp only [wmemEffect, except_bind_eq_error, memWrite_eq_error] at h
    rcases h with h | ⟨_, _, h | ⟨_, _, ⟨hlt, rfl⟩ | ⟨_, _, h⟩⟩⟩
    · exact .inl ⟨e, (val_error_real h).1, by simp [(val_error_real h).2], rfl⟩
    · exact .inl ⟨e, (val_error_real h).1, by simp [(val_error_real h).2], rfl⟩
    · exact .inl ⟨.addressOutOfBounds _, hlt, by simp [Trap.kind], rfl⟩
    · cases h

/-- Everything `PUSH` can answer. -/
theorem execPush_next {a : Word} {s t : State} (h : exec (.push a) s = .next t) :
    TookFault [.invalidOperand] s t ∨ ∃ v, val a s = .ok v ∧ t = pushWord v (s.advance 2) := by
  replace h := conclude_eq_next.mp h
  rcases h with h | ⟨e, h, rfl⟩
  · obtain ⟨v, ha, ht⟩ := except_bind_eq_ok.mp h
    exact .inr ⟨v, ha, (Except.ok.inj ht).symm⟩
  · rcases except_bind_eq_error.mp h with h | ⟨_, _, h⟩
    · exact .inl ⟨e, (val_error_real h).1, by simp [(val_error_real h).2], rfl⟩
    · cases h

/-- Everything `POP` can answer. -/
theorem execPop_next {a : Word} {s t : State} (h : exec (.pop a) s = .next t) :
    TookFault [.notARegister, .stackUnderflow] s t ∨
      ∃ (j : Fin 8) (v : Word) (rest : List Word), a.toNat = 32768 + j.val ∧ s.stack = v :: rest ∧
        t = ({ s.advance 2 with stack := rest } : State).setReg j v := by
  replace h := conclude_eq_next.mp h
  rcases h with h | ⟨e, h, rfl⟩
  · simp only [popEffect, except_bind_eq_ok] at h
    obtain ⟨n, ha, ⟨v, u⟩, hp, hw⟩ := h
    obtain ⟨j, rfl, rfl⟩ := writeRegister_eq_ok.mp hw
    rcases popWord_cases s with ⟨-, h'⟩ | ⟨v', rest, hst, h'⟩
    · rw [h'] at hp
      cases hp
    · rw [h'] at hp
      cases hp
      exact .inr ⟨j, _, rest, (dst_eq_ok.mp ha).2, hst, rfl⟩
  · simp only [popEffect, except_bind_eq_error] at h
    rcases h with h | ⟨n, ha, h | ⟨⟨v, u⟩, _, h⟩⟩
    · exact .inl ⟨e, (dst_error_real h).1, by simp [(dst_error_real h).2], rfl⟩
    · rcases popWord_cases s with ⟨-, h'⟩ | ⟨v', rest, hst, h'⟩
      · rw [h'] at h
        cases h
        exact .inl ⟨.stackUnderflow, trivial, by simp [Trap.kind], rfl⟩
      · rw [h'] at h
        cases h
    · simp [writeRegister, (dst_eq_ok.mp ha).1] at h

/-- Everything `JMP` can answer. -/
theorem execJmp_next {a : Word} {s t : State} (h : exec (.jmp a) s = .next t) :
    TookFault [.invalidOperand] s t ∨ ∃ v, val a s = .ok v ∧ t = s.jumpTo v := by
  replace h := conclude_eq_next.mp h
  rcases h with h | ⟨e, h, rfl⟩
  · obtain ⟨v, ha, ht⟩ := except_bind_eq_ok.mp h
    exact .inr ⟨v, ha, (Except.ok.inj ht).symm⟩
  · rcases except_bind_eq_error.mp h with h | ⟨_, _, h⟩
    · exact .inl ⟨e, (val_error_real h).1, by simp [(val_error_real h).2], rfl⟩
    · cases h

/-- Everything a conditional jump can answer, in either reading of the target operand. -/
theorem condJump_next {eager : Bool} {test : Word → Bool} {a b : Word} {s t : State}
    (h : conclude s (condJumpEffect eager test a b s) = .next t) :
    TookFault [.invalidOperand] s t ∨
      ∃ va, val a s = .ok va ∧
        ((test va = true ∧ ∃ v, val b s = .ok v ∧ t = s.jumpTo v) ∨ (test va = false ∧ t = s.advance 3)) := by
  replace h := conclude_eq_next.mp h
  rcases h with h | ⟨e, h, rfl⟩
  · obtain ⟨va, ha, h⟩ := except_bind_eq_ok.mp h
    refine .inr ⟨va, ha, ?_⟩
    split at h
    · next ht =>
      obtain ⟨v, hb, h⟩ := except_bind_eq_ok.mp h
      exact .inl ⟨ht, v, hb, (Except.ok.inj h).symm⟩
    · next ht =>
      refine .inr ⟨by simpa using ht, ?_⟩
      split at h
      · obtain ⟨v, hb, h⟩ := except_bind_eq_ok.mp h
        exact (Except.ok.inj h).symm
      · exact (Except.ok.inj h).symm
  · have hv : ∃ w, val w s = .error e := by
      rcases except_bind_eq_error.mp h with h | ⟨va, _, h⟩
      · exact ⟨a, h⟩
      · split at h
        · rcases except_bind_eq_error.mp h with h | ⟨_, _, h⟩
          · exact ⟨b, h⟩
          · cases h
        · split at h
          · rcases except_bind_eq_error.mp h with h | ⟨_, _, h⟩
            · exact ⟨b, h⟩
            · cases h
          · cases h
    obtain ⟨w, hv⟩ := hv
    exact .inl ⟨e, (val_error_real hv).1, by simp [(val_error_real hv).2], rfl⟩

/-- Everything `JT` can answer. -/
theorem execJt_next {a b : Word} {s t : State} (h : exec (.jt a b) s = .next t) :
    TookFault [.invalidOperand] s t ∨
      ∃ va, val a s = .ok va ∧
        ((isNonzero va = true ∧ ∃ v, val b s = .ok v ∧ t = s.jumpTo v) ∨ (isNonzero va = false ∧ t = s.advance 3)) :=
  condJump_next h

/-- Everything `JF` can answer. -/
theorem execJf_next {a b : Word} {s t : State} (h : exec (.jf a b) s = .next t) :
    TookFault [.invalidOperand] s t ∨
      ∃ va, val a s = .ok va ∧
        ((isZero va = true ∧ ∃ v, val b s = .ok v ∧ t = s.jumpTo v) ∨ (isZero va = false ∧ t = s.advance 3)) :=
  condJump_next h

/-- Everything `CALL` can answer. -/
theorem execCall_next {a : Word} {s t : State} (h : exec (.call a) s = .next t) :
    TookFault [.invalidOperand] s t ∨ ∃ v, val a s = .ok v ∧ t = (pushWord (s.advance 2).pc s).jumpTo v := by
  replace h := conclude_eq_next.mp h
  rcases h with h | ⟨e, h, rfl⟩
  · obtain ⟨v, ha, ht⟩ := except_bind_eq_ok.mp h
    exact .inr ⟨v, ha, (Except.ok.inj ht).symm⟩
  · rcases except_bind_eq_error.mp h with h | ⟨_, _, h⟩
    · exact .inl ⟨e, (val_error_real h).1, by simp [(val_error_real h).2], rfl⟩
    · cases h

/-- Everything `RET` can answer. -/
theorem execRet_next {s t : State} (h : exec .ret s = .next t) :
    (s.stack = [] ∧ t = (s.advance 1).halt) ∨
      ∃ v rest, s.stack = v :: rest ∧ t = ({ s with stack := rest } : State).jumpTo v := by
  change execRet s = .next t at h
  rcases popWord_cases s with ⟨hst, h'⟩ | ⟨v, rest, hst, h'⟩ <;> simp only [execRet, h'] at h <;> cases h
  · exact .inl ⟨hst, rfl⟩
  · exact .inr ⟨v, rest, hst, rfl⟩

/-- Everything `OUT` can answer. -/
theorem execOut_next {a : Word} {s t : State} (h : exec (.out a) s = .next t) :
    TookFault [.invalidOperand] s t ∨ ∃ v, val a s = .ok v ∧ t = emit (lowByte v) (s.advance 2) := by
  replace h := conclude_eq_next.mp h
  rcases h with h | ⟨e, h, rfl⟩
  · obtain ⟨v, ha, ht⟩ := except_bind_eq_ok.mp h
    exact .inr ⟨v, ha, (Except.ok.inj ht).symm⟩
  · rcases except_bind_eq_error.mp h with h | ⟨_, _, h⟩
    · exact .inl ⟨e, (val_error_real h).1, by simp [(val_error_real h).2], rfl⟩
    · cases h

/-- Everything `IN` can answer as a next state: a fault, or a byte taken. -/
theorem execInb_next {a : Word} {s t : State} (h : exec (.inb a) s = .next t) :
    TookFault [.notARegister, .inputExhausted] s t ∨
      ∃ (j : Fin 8) (b : Byte) (rest : List Byte), a.toNat = 32768 + j.val ∧ s.inp = b :: rest ∧
        t = ({ s.advance 2 with inp := rest } : State).setReg j (zeroExtend16 b) := by
  change execInb a s = .next t at h
  unfold execInb at h
  split at h
  · next e he =>
    cases h
    exact .inl ⟨e, (dst_error_real he).1, by simp [(dst_error_real he).2], rfl⟩
  · next n hn =>
    obtain ⟨hlt, ha⟩ := dst_eq_ok.mp hn
    rcases nextInput_cases s with ⟨h1, h2, h3⟩ | ⟨h1, h2, h3⟩ | ⟨b, rest, h1, h3⟩ <;> rw [h3] at h
    · cases h
    · cases h
      exact .inl ⟨.inputExhausted, trivial, by simp [Trap.kind], rfl⟩
    · simp only [writeRegister_fin ⟨n, hlt⟩] at h
      cases h
      exact .inr ⟨⟨n, hlt⟩, b, rest, ha, h1, rfl⟩

/-- `HALT` and `NOOP` have one answer each. -/
theorem execHalt_next {s t : State} (h : exec .halt s = .next t) : t = (s.advance 1).halt := by
  cases h
  rfl

theorem execNoop_next {s t : State} (h : exec .noop s = .next t) : t = s.advance 1 := by
  cases h
  rfl

/-- The one stop of `exec`: an `IN` with a legal destination for which the host has answered neither a byte nor the end. -/
theorem exec_eq_fault {i : Instr} {s : State} {f : Fault} :
    exec i s = .fault f ↔
      f = .noStepAwaitingInput ∧ s.inp = [] ∧ s.inpEnded = false ∧ ∃ a n, i = .inb a ∧ dst a = .ok n := by
  have hc : ∀ r, conclude s r ≠ .fault f := by
    intro r
    cases r <;> simp
  cases i with
  | inb a =>
    change execInb a s = _ ↔ _
    unfold execInb
    cases hd : dst a with
    | error e => simp [hd]
    | ok n =>
      obtain ⟨h1, h2, h3⟩ | ⟨h1, h2, h3⟩ | ⟨b, rest, h1, h3⟩ := nextInput_cases s
      · simp [h1, h2, h3, hd, eq_comm]
      · simp [h1, h2, h3]
      · simp [h1, h3, hc]
  | halt => simp [exec, execHalt]
  | noop => simp [exec, execNoop]
  | ret =>
    simp only [exec, execRet]
    split <;> simp
  | _ => exact ⟨fun h => absurd h (hc _), fun ⟨_, _, _, _, _, h, _⟩ => nomatch h⟩

end Sys2Proof.Machine
end

