-- ==== Sys2Proof/Laws/PerInstr.lean ====
section
/-! SUPPORT. A statement about every instruction as syntax, one lemma for each constructor: its first word selects the row of
the opcode map (30_encoding.md R76) that has its operand count. -/

namespace Sys2Proof

/-- The encoding of `i` starts with an opcode word whose row has as many operands as words follow it. -/
def Laws.OpcodeRow.Statement (i : Instr) : Prop :=
  ∃ (op : Word) (operands : List Word) (f : Format), encode i = op :: operands ∧ formatOf op = some f ∧
    f.arity = operands.length ∧ instrLength i = operands.length + 1

theorem Laws.OpcodeRow.halt : Laws.OpcodeRow.Statement .halt := ⟨_, _, _, rfl, rfl, rfl, rfl⟩

theorem Laws.OpcodeRow.set (a b : Word) : Laws.OpcodeRow.Statement (.set a b) := ⟨_, _, _, rfl, rfl, rfl, rfl⟩

theorem Laws.OpcodeRow.push (a : Word) : Laws.OpcodeRow.Statement (.push a) := ⟨_, _, _, rfl, rfl, rfl, rfl⟩

theorem Laws.OpcodeRow.pop (a : Word) : Laws.OpcodeRow.Statement (.pop a) := ⟨_, _, _, rfl, rfl, rfl, rfl⟩

theorem Laws.OpcodeRow.eq (a b c : Word) : Laws.OpcodeRow.Statement (.eq a b c) := ⟨_, _, _, rfl, rfl, rfl, rfl⟩

theorem Laws.OpcodeRow.gt (a b c : Word) : Laws.OpcodeRow.Statement (.gt a b c) := ⟨_, _, _, rfl, rfl, rfl, rfl⟩

theorem Laws.OpcodeRow.jmp (a : Word) : Laws.OpcodeRow.Statement (.jmp a) := ⟨_, _, _, rfl, rfl, rfl, rfl⟩

theorem Laws.OpcodeRow.jt (a b : Word) : Laws.OpcodeRow.Statement (.jt a b) := ⟨_, _, _, rfl, rfl, rfl, rfl⟩

theorem Laws.OpcodeRow.jf (a b : Word) : Laws.OpcodeRow.Statement (.jf a b) := ⟨_, _, _, rfl, rfl, rfl, rfl⟩

theorem Laws.OpcodeRow.add (a b c : Word) : Laws.OpcodeRow.Statement (.add a b c) := ⟨_, _, _, rfl, rfl, rfl, rfl⟩

theorem Laws.OpcodeRow.mult (a b c : Word) : Laws.OpcodeRow.Statement (.mult a b c) := ⟨_, _, _, rfl, rfl, rfl, rfl⟩

theorem Laws.OpcodeRow.mod (a b c : Word) : Laws.OpcodeRow.Statement (.mod a b c) := ⟨_, _, _, rfl, rfl, rfl, rfl⟩

theorem Laws.OpcodeRow.and (a b c : Word) : Laws.OpcodeRow.Statement (.and a b c) := ⟨_, _, _, rfl, rfl, rfl, rfl⟩

theorem Laws.OpcodeRow.or (a b c : Word) : Laws.OpcodeRow.Statement (.or a b c) := ⟨_, _, _, rfl, rfl, rfl, rfl⟩

theorem Laws.OpcodeRow.not (a b : Word) : Laws.OpcodeRow.Statement (.not a b) := ⟨_, _, _, rfl, rfl, rfl, rfl⟩

theorem Laws.OpcodeRow.rmem (a b : Word) : Laws.OpcodeRow.Statement (.rmem a b) := ⟨_, _, _, rfl, rfl, rfl, rfl⟩

theorem Laws.OpcodeRow.wmem (a b : Word) : Laws.OpcodeRow.Statement (.wmem a b) := ⟨_, _, _, rfl, rfl, rfl, rfl⟩

theorem Laws.OpcodeRow.call (a : Word) : Laws.OpcodeRow.Statement (.call a) := ⟨_, _, _, rfl, rfl, rfl, rfl⟩

theorem Laws.OpcodeRow.ret : Laws.OpcodeRow.Statement .ret := ⟨_, _, _, rfl, rfl, rfl, rfl⟩

theorem Laws.OpcodeRow.out (a : Word) : Laws.OpcodeRow.Statement (.out a) := ⟨_, _, _, rfl, rfl, rfl, rfl⟩

theorem Laws.OpcodeRow.inb (a : Word) : Laws.OpcodeRow.Statement (.inb a) := ⟨_, _, _, rfl, rfl, rfl, rfl⟩

theorem Laws.OpcodeRow.noop : Laws.OpcodeRow.Statement .noop := ⟨_, _, _, rfl, rfl, rfl, rfl⟩

end Sys2Proof
end

