-- ==== Sys2Proof/Laws/Step.lean ====
section
/-! SUPPORT. What a step can answer, and the packaged induction over the states that the block and its host reach. -/

namespace Sys2Proof.Machine

/-- A step that answers a next state began in `Running`, and it took the decode's fault or ran the decoded instruction. -/
theorem step_next_cases {s t : State} (h : step s = .next t) :
    s.runstate = .running ∧
      ((∃ e, decodeAt s.pc s.heap = .error e ∧ t = takeFault e s) ∨
        ∃ i next, decodeAt s.pc s.heap = .ok (i, next) ∧ exec i s = .next t) := by
  unfold step at h
  split at h
  · cases h
  · cases h
  · cases h
  · next hr =>
    refine ⟨hr, ?_⟩
    split at h
    · next e he =>
      cases h
      exact .inl ⟨e, he, rfl⟩
    · next i next hd => exact .inr ⟨i, next, hd, h⟩

/-- Where a step waits for the host: in `Running`, at an `IN` with a legal destination, no byte there and no end. -/
theorem step_eq_awaiting {s : State} :
    step s = .fault .noStepAwaitingInput ↔
      s.runstate = .running ∧ s.inp = [] ∧ s.inpEnded = false ∧
        ∃ a n next, decodeAt s.pc s.heap = .ok (.inb a, next) ∧ dst a = .ok n := by
  unfold step
  cases hr : s.runstate <;> simp only [reduceCtorEq, false_and, Host.Outcome.fault.injEq, true_and]
  cases hd : decodeAt s.pc s.heap with
  | error e => simp
  | ok p =>
    obtain ⟨i, next⟩ := p
    simp only [exec_eq_fault, true_and, Except.ok.injEq, Prod.mk.injEq]
    constructor
    · rintro ⟨h1, h2, a, n, rfl, hn⟩
      exact ⟨h1, h2, a, n, next, ⟨rfl, rfl⟩, hn⟩
    · rintro ⟨h1, h2, a, n, _, ⟨rfl, _⟩, hn⟩
      exact ⟨h1, h2, a, n, rfl, hn⟩

/-- `awaitsInput` says that the step waits for the host. -/
theorem awaitsInput_iff {s : State} : awaitsInput s = true ↔ step s = .fault .noStepAwaitingInput := by
  unfold awaitsInput
  split <;> simp_all

/-- The host's answers to a waiting `IN`, and that it has no other. -/
theorem hostInput_eq_some {b : Byte} {s t : State} :
    hostInput b s = some t ↔ step s = .fault .noStepAwaitingInput ∧ t = { s with inp := [b] } := by
  simp [hostInput, awaitsInput_iff, eq_comm (a := t)]

theorem hostInputEnd_eq_some {s t : State} :
    hostInputEnd s = some t ↔ step s = .fault .noStepAwaitingInput ∧ t = { s with inpEnded := true } := by
  simp [hostInputEnd, awaitsInput_iff, eq_comm (a := t)]

/-- A load is made in `Ready`, once, and the image counts as loaded then. -/
theorem hostLoad_eq_some {words : List Word} {s t : State} (h : hostLoad words s = some t) :
    s.runstate = .ready ∧ s.imageLoaded = false ∧ t.imageLoaded = true := by
  unfold hostLoad at h
  split at h
  · next hr =>
    split at h
    · cases h
    · next hl =>
      refine ⟨hr, by simpa using hl, ?_⟩
      split at h <;> cases h <;> rfl
  all_goals cases h

/-- What reset has and every step and host move keeps holds of every state they reach. -/
theorem Reachable.induct {P : State → Prop} (h0 : P State.reset) (hs : ∀ s t, P s → Machine.step s = .next t → P t)
    (hh : ∀ m s t, P s → hostMove m s = some t → P t) {s : State} (h : Reachable s) : P s := by
  induction h with
  | reset => exact h0
  | step _ h ih => exact hs _ _ ih h
  | host m _ h ih => exact hh m _ _ ih h

end Sys2Proof.Machine
end

