-- ==== Sys2Proof/Tests/Slice0.lean ====
section
/-! SUPPORT. The model's own tests: the well-formedness smoke tests, a written-out word decoded for each instruction, at most
two single steps for each instruction (expected results from 95_test_vectors.md part 2), and a witness for the
hypotheses of each statement. -/

namespace Sys2Proof.Tests

open Sys2Proof.Machine

/-- A started machine with words at heap address 0 and everything else as reset leaves it. -/
def loaded (words : List Word) : State :=
  { State.reset with runstate := .running, heap := layWords 0 words [], imageLoaded := true }

/-- A started machine with words at address `a` and the counter there. -/
def loadedAt (a : Nat) (words : List Word) : State :=
  { loaded [] with heap := layWords a words [], pc := BitVec.ofNat 16 a }

/-- The step answers a next state of which `p` holds. -/
def after (s : State) (p : State → Bool) : Bool :=
  match step s with
  | .next t => p t
  | .fault _ => false
  | .refused _ => false

/-- The state has taken this fault. -/
def tookFault (k : FaultKind) (addr info : Word) (t : State) : Bool :=
  t.runstate == .faulted && t.fault == { kind := k, addr := addr, info := info }

/-! ### Well-formedness: an ill-formed term for each check -/

theorem test_wf_refuses_literal_destination : (Instr.set 5 7).wellFormed = false := by decide
theorem test_wf_refuses_invalid_destination : (Instr.pop 32776).wellFormed = false := by decide
theorem test_wf_refuses_invalid_first_value : (Instr.push 32776).wellFormed = false := by decide
theorem test_wf_refuses_invalid_second_value : (Instr.rmem 32768 40000).wellFormed = false := by decide
theorem test_wf_refuses_invalid_third_value : (Instr.add 32768 1 65535).wellFormed = false := by decide
theorem test_wf_refuses_invalid_target : (Instr.jt 0 32776).wellFormed = false := by decide
theorem test_wf_accepts_bounds : (Instr.add 32775 32767 32775).wellFormed = true := by decide

/-! ### Decoding: words written out from 30_encoding.md R70 and R76 and the instruction rules' examples -/

theorem test_decode_halt : decode [0x0000] = .ok (.halt, []) := by decide
theorem test_decode_set : decode [0x0001, 0x8000, 0x000A] = .ok (.set 32768 10, []) := by decide
theorem test_decode_push : decode [0x0002, 0x0048] = .ok (.push 72, []) := by decide
theorem test_decode_pop : decode [0x0003, 0x8000] = .ok (.pop 32768, []) := by decide
theorem test_decode_eq : decode [0x0004, 0x8000, 0x8001, 0x0004] = .ok (.eq 32768 32769 4, []) := by decide
theorem test_decode_gt : decode [0x0005, 0x8000, 0x0006, 0x0005] = .ok (.gt 32768 6 5, []) := by decide
theorem test_decode_jmp : decode [0x0006, 0x0006] = .ok (.jmp 6, []) := by decide
theorem test_decode_jt : decode [0x0007, 0x8000, 0x0006] = .ok (.jt 32768 6, []) := by decide
theorem test_decode_jf : decode [0x0008, 0x8001, 0x0014] = .ok (.jf 32769 20, []) := by decide
theorem test_decode_add : decode [0x0009, 0x8002, 0x8000, 0x8001] = .ok (.add 32770 32768 32769, []) := by decide
theorem test_decode_mult : decode [0x000A, 0x8000, 0x00B5, 0x00B6] = .ok (.mult 32768 181 182, []) := by decide
theorem test_decode_mod : decode [0x000B, 0x8000, 0x000A, 0x0003] = .ok (.mod 32768 10 3, []) := by decide
theorem test_decode_and : decode [0x000C, 0x8000, 0x000C, 0x000A] = .ok (.and 32768 12 10, []) := by decide
theorem test_decode_or : decode [0x000D, 0x8000, 0x5555, 0x2AAA] = .ok (.or 32768 21845 10922, []) := by decide
theorem test_decode_not : decode [0x000E, 0x8000, 0x0000] = .ok (.not 32768 0, []) := by decide
theorem test_decode_rmem : decode [0x000F, 0x8000, 0x0009] = .ok (.rmem 32768 9, []) := by decide
theorem test_decode_wmem : decode [0x0010, 0x0064, 0x8001] = .ok (.wmem 100 32769, []) := by decide
theorem test_decode_call : decode [0x0011, 0x0006] = .ok (.call 6, []) := by decide
theorem test_decode_ret : decode [0x0012] = .ok (.ret, []) := by decide
theorem test_decode_out : decode [0x0013, 0x0041] = .ok (.out 65, []) := by decide
theorem test_decode_inb : decode [0x0014, 0x8000] = .ok (.inb 32768, []) := by decide
theorem test_decode_noop : decode [0x0015] = .ok (.noop, []) := by decide

theorem test_decode_leaves_the_rest : decode [0x0006, 0x0000, 0x0015] = .ok (.jmp 0, [0x0015]) := by decide
theorem test_decode_rejects_22 : decode [22, 0, 0, 0] = .error (.unknownOpcode 22) := by decide
theorem test_decode_rejects_275 : decode [275] = .error (.unknownOpcode 275) := by decide
theorem test_decode_rejects_missing_operand : decode [9, 1, 2] = .error (.outOfWords 3) := by decide
theorem test_table_word : decodeTableWord 48 0x000A80000001 = some (.set 32768 10) := by decide
theorem test_table_word_short : decodeTableWord 16 9 = some (.add 0 0 0) := by decide

/-- 95 part 2, Decoder: the last cell holds an operand-less opcode above 21, or an opcode whose operand is missing. -/
theorem test_decodeAt_top_unknown : decodeAt 32767 [(32767, 22)] = .error (.unknownOpcode 22) := by decide
theorem test_decodeAt_top_missing : decodeAt 32767 [(32767, 1)] = .error (.addressOutOfBounds 32768) := by decide
theorem test_decodeAt_top_push : decodeAt 32766 [(32766, 2), (32767, 5)] = .ok (.push 5, 32768) := by decide
theorem test_decodeAt_third_missing :
    decodeAt 32765 [(32765, 9), (32766, 32768), (32767, 1)] = .error (.addressOutOfBounds 32768) := by decide
theorem test_decodeAt_beyond : decodeAt 40000 [] = .error (.addressOutOfBounds 40000) := by decide

/-! ### Single steps (95_test_vectors.md part 2) -/

theorem test_halt : after (loaded [0]) (fun t => t.runstate == .halted && t.pc == 1) = true := by decide
theorem test_halt_top_cell :
    after (loadedAt 32767 [0]) (fun t => t.runstate == .halted && t.pc == 32768) = true := by decide
theorem test_noop_top_cell :
    after (loadedAt 32767 [21]) (fun t => t.runstate == .running && t.pc == 32768) = true := by decide
theorem test_set_copies_wide :
    after ((loaded [1, 32775, 32768]).setReg 0 40000) (fun t => t.reg 7 == 40000 && t.pc == 3) = true := by decide
theorem test_set_literal_destination :
    after (loaded [1, 5, 7]) (fun t => tookFault .notARegister 0 5 t && t.heap.read 5 == 0) = true := by decide
theorem test_push_wide :
    after ({ (loaded [2, 32768]).setReg 0 40000 with stack := [1] }) (fun t => t.stack == [40000, 1]) = true := by decide
theorem test_push_invalid :
    after ({ loaded [2, 40000] with stack := [1] })
      (fun t => tookFault .invalidOperand 0 40000 t && t.stack == [1]) = true := by decide
theorem test_pop :
    after ({ loaded [3, 32768] with stack := [72, 2] })
      (fun t => t.reg 0 == 72 && t.stack == [2] && t.pc == 2) = true := by decide
theorem test_pop_priority : after (loaded [3, 5]) (tookFault .notARegister 0 5) = true := by decide
theorem test_eq_no_reduction :
    after ((loaded [4, 32770, 32768, 7232]).setReg 0 40000) (fun t => t.reg 2 == 0 && t.pc == 4) = true := by decide
theorem test_eq_same_register :
    after ((loaded [4, 32768, 32768, 32768]).setReg 0 77) (fun t => t.reg 0 == 1) = true := by decide
theorem test_gt_unsigned :
    after ((loaded [5, 32771, 32768, 32767]).setReg 0 40000) (fun t => t.reg 3 == 1) = true := by decide
theorem test_gt_equal : after ((loaded [5, 32768, 5, 5]).setReg 0 9) (fun t => t.reg 0 == 0) = true := by decide
theorem test_jmp_wide :
    after ((loaded [6, 32768]).setReg 0 40000) (fun t => t.runstate == .running && t.pc == 40000) = true := by decide
theorem test_jt_taken : after ((loaded [7, 32768, 32768]).setReg 0 9) (fun t => t.pc == 9) = true := by decide
theorem test_jt_untaken_invalid_target :
    after (loaded [7, 0, 40000]) (fun t => t.runstate == .running && t.pc == 3) = true := by decide
theorem test_jf_taken : after (loaded [8, 32775, 20]) (fun t => t.pc == 20) = true := by decide
theorem test_jf_taken_invalid_target : after (loaded [8, 0, 40000]) (tookFault .invalidOperand 0 40000) = true := by
  decide
theorem test_add_wraps :
    after ((loaded [9, 32768, 32768, 32767])) (fun t => t.reg 0 == 32767) = true := by decide
theorem test_add_wide :
    after (((loaded [9, 32770, 32768, 32769]).setReg 0 65535).setReg 1 65535) (fun t => t.reg 2 == 32766) = true := by
  decide
theorem test_mult : after (loaded [10, 32768, 1000, 1000]) (fun t => t.reg 0 == 16960 && t.pc == 4) = true := by decide
theorem test_mult_wide :
    after (((loaded [10, 32770, 32768, 32769]).setReg 0 65535).setReg 1 65535) (fun t => t.reg 2 == 1) = true := by decide
theorem test_mod_wide :
    after (((loaded [11, 32770, 32768, 32769]).setReg 0 40000).setReg 1 50000) (fun t => t.reg 2 == 7232) = true := by
  decide
theorem test_mod_by_zero :
    after ((loaded [11, 32768, 5, 0]).setReg 0 9) (fun t => tookFault .divisionByZero 0 0 t && t.reg 0 == 9) = true := by
  decide
theorem test_and_masks :
    after ((loaded [12, 32769, 32768, 32768]).setReg 0 40000) (fun t => t.reg 1 == 7232) = true := by decide
theorem test_or : after (loaded [13, 32768, 21845, 10922]) (fun t => t.reg 0 == 32767) = true := by decide
theorem test_or_masks :
    after ((loaded [13, 32769, 32768, 0]).setReg 0 40000) (fun t => t.reg 1 == 7232) = true := by decide
theorem test_not_in_place :
    after ((loaded [14, 32769, 32769]).setReg 1 100) (fun t => t.reg 1 == 32667 && t.pc == 3) = true := by decide
theorem test_not_wide : after ((loaded [14, 32770, 32768]).setReg 0 40000) (fun t => t.reg 2 == 25535) = true := by decide
theorem test_rmem_own_operand :
    after ((loaded [15, 32768, 32768]).setReg 0 1) (fun t => t.reg 0 == 32768) = true := by decide
theorem test_rmem_out_of_bounds :
    after ((loaded [15, 32768, 32769]).setReg 1 32768) (tookFault .addressOutOfBounds 0 32768) = true := by decide
theorem test_wmem :
    after (((loaded [16, 32768, 32769]).setReg 0 200).setReg 1 40000)
      (fun t => t.heap.read 200 == 40000 && t.reg 0 == 200 && t.pc == 3) = true := by decide
theorem test_wmem_own_word : after (loaded [16, 0, 21]) (fun t => t.heap.read 0 == 21 && t.pc == 3) = true := by decide
theorem test_call_top : after (loadedAt 32766 [17, 3]) (fun t => t.stack == [32768] && t.pc == 3) = true := by decide
theorem test_call_invalid :
    after ({ loaded [17, 40000] with stack := [1] })
      (fun t => tookFault .invalidOperand 0 40000 t && t.stack == [1]) = true := by decide
theorem test_ret :
    after ({ loaded [18] with stack := [40000, 7] })
      (fun t => t.pc == 40000 && t.stack == [7] && t.runstate == .running) = true := by decide
theorem test_ret_empty : after (loaded [18]) (fun t => t.runstate == .halted && t.pc == 1) = true := by decide
theorem test_out_low_byte : after (loaded [19, 321]) (fun t => t.out == [65] && t.pc == 2) = true := by decide
theorem test_in :
    after ({ loaded [20, 32768] with inp := [104, 105] })
      (fun t => t.reg 0 == 104 && t.inp == [105] && t.pc == 2) = true := by decide
theorem test_in_exhausted :
    after ({ loaded [20, 32768] with inpEnded := true }) (tookFault .inputExhausted 0 0) = true := by decide

/-- 95 part 2, IN, last row: no byte supplied and not ended, "no step; the block holds with `pc = 0`". -/
theorem test_in_holds : step (loaded [20, 32768]) = .fault .noStepAwaitingInput := rfl

/-- 20_memory.md R52 and E11: the bytes of Scenario A, and three bytes. -/
theorem test_image_words : imageWords [0x13, 0x00, 0x41, 0x00, 0x00, 0x00] = some [19, 65, 0] := by decide
theorem test_image_odd : imageWords [0x13, 0x00, 0x41] = none := by decide

/-! ### Witnesses: for each statement with hypotheses, states and operands that meet them, at boundary values -/

/-- A started machine with `r7 = 40000`, `r0 = 32768`, a stack of one word and one input byte. -/
def rich : State :=
  { ((loaded [21]).setReg 7 40000).setReg 0 32768 with stack := [65535], inp := [255] }

/-- A started machine at the last cell, which holds a word. -/
def atTop (w : Word) : State := loadedAt 32767 [w]

theorem witness_DecoderFaultsInOrder :
    32768 ≤ (32768 : Word).toNat ∧
    ((32767 : Word).toNat < 32768 ∧ 21 < (Memory.read [(32767, 22)] (32767 : Word).toNat).toNat) ∧
    ((32765 : Word).toNat < 32768 ∧ operandCounts[(Memory.read [(32765, 9)] (32765 : Word).toNat).toNat]? = some 3 ∧
      32767 < (32765 : Word).toNat + 3) ∧
    ((32764 : Word).toNat < 32768 ∧ operandCounts[(Memory.read [(32764, 9)] (32764 : Word).toNat).toNat]? = some 3 ∧
      (32764 : Word).toNat + 3 ≤ 32767) := by decide
theorem witness_StepRunsTheDecodedInstruction :
    (atTop 21).runstate = .running ∧ decodeAt (atTop 21).pc (atTop 21).heap = .ok (.noop, 32768) := by decide
theorem witness_StepTakesTheDecodeFault :
    (atTop 22).runstate = .running ∧ decodeAt (atTop 22).pc (atTop 22).heap = .error (.unknownOpcode 22) := by decide
theorem witness_NoStepOutsideRunning :
    State.reset.runstate = .ready ∧ (rich.halt).runstate = .halted ∧ (takeFault .stackUnderflow rich).runstate = .faulted :=
  ⟨rfl, rfl, rfl⟩
theorem witness_ValByKind :
    kind 32767 = .literal ∧ (32768 : Word).toNat = 32768 + (0 : Fin 8).val ∧
    (32775 : Word).toNat = 32768 + (7 : Fin 8).val ∧ kind 32776 = .invalid := by decide
theorem witness_DstByKind :
    (32768 ≤ (32775 : Word).toNat ∧ (32775 : Word).toNat ≤ 32775) ∧ (32767 : Word).toNat < 32768 ∧
    32775 < (32776 : Word).toNat := by decide
theorem witness_OperandBitLayout : kind 32775 = .register ∧ kind 32768 = .register := by decide
theorem witness_MemReadChecksTheBound : 32768 ≤ (32768 : Word).toNat ∧ (32767 : Word).toNat < 32768 := by decide
theorem witness_MemWriteStoresOneCell :
    32768 ≤ (65535 : Word).toNat ∧ (32767 : Word).toNat < 32768 ∧ 32766 ≠ (32767 : Word).toNat := by decide
theorem witness_TranslatorTestsBit15 :
    (32767 : Word).getLsbD 15 = false ∧ (32768 : Word).getLsbD 15 = true := by decide
theorem witness_StackController : State.reset.stack = [] ∧ rich.stack = 65535 :: [] := by decide
theorem witness_StackController_shared :
    dst 32775 = .ok (7 : Fin 8).val ∧ exec (.call 6) rich = .next { rich with stack := [2, 65535], pc := 6 } ∧
    rich.runstate ≠ .faulted ∧ val 1 rich = .ok 1 ∧
    exec (.push 1) rich = .next { rich with stack := [1, 65535], pc := 2 } := ⟨by decide, rfl, by decide, by decide, rfl⟩
theorem witness_HaltStep :
    ((atTop 0).runstate = .running ∧ (atTop 0).pc.toNat < 32768 ∧ (atTop 0).heap.read (atTop 0).pc.toNat = 0) ∧
    ({ rich with pc := 32768 } : State).runstate = .running ∧ 32768 ≤ ({ rich with pc := 32768 } : State).pc.toNat := by
  decide

/-- The hypotheses of the statements about a destination and two values (`SET`, `EQ`, `GT`, `ADD`, `MULT`, `AND`, `OR`,
`NOT`), with a register above 32767 and the largest literal. -/
theorem witness_destination_and_values :
    dst 32775 = .ok (7 : Fin 8).val ∧ val 32775 rich = .ok 40000 ∧ val 32767 rich = .ok 32767 := by decide
theorem witness_PushAndPopOutcomes :
    val 32775 rich = .ok 40000 ∧ dst 32768 = .ok (0 : Fin 8).val ∧ rich.stack = 65535 :: [] ∧
    State.reset.stack = [] := by decide
theorem witness_JmpAssignsTheCounter : val 32768 rich = .ok 32768 := by decide
theorem witness_ConditionalJumpOutcomes :
    (val 32775 rich = .ok 40000 ∧ (40000 : Word).toNat ≠ 0) ∧ val 32767 rich = .ok 32767 ∧
    val 32769 rich = .ok 0 ∧ (0 : Word).toNat = 0 := by decide
theorem witness_EagerTargetDiffersOnlyUntaken :
    val 1 rich = .ok 1 ∧ kind 32775 ≠ .invalid ∧ kind 32776 = .invalid ∧ isNonzero 1 = true ∧ isZero 1 = false := by
  decide
theorem witness_ModOutcomes :
    dst 32775 = .ok (7 : Fin 8).val ∧ val 0 rich = .ok 0 ∧ val 1 rich = .ok 1 ∧ (1 : Word).toNat ≠ 0 ∧
    (0 : Word).toNat = 0 := by decide
theorem witness_NotIsComplementTo32767 : (32767 : Word).toNat ≤ 32767 := by decide
theorem witness_RmemOutcomes :
    dst 32768 = .ok (0 : Fin 8).val ∧ (val 32767 rich = .ok 32767 ∧ (32767 : Word).toNat < 32768) ∧
    val 32768 rich = .ok 32768 ∧ 32768 ≤ (32768 : Word).toNat := by decide
theorem witness_WmemOutcomes :
    val 32775 rich = .ok 40000 ∧ (val 32767 rich = .ok 32767 ∧ (32767 : Word).toNat < 32768) ∧
    val 32768 rich = .ok 32768 ∧ 32768 ≤ (32768 : Word).toNat ∧ 32766 ≠ (32767 : Word).toNat := by decide
theorem witness_CallPushesTheReturnAddress : val 32775 rich = .ok 40000 ∧ val 0 rich = .ok 0 := by decide
theorem witness_RetOutcomes : rich.stack = 65535 :: [] ∧ State.reset.stack = [] := by decide
theorem witness_CallThenRetResumes :
    kind 6 ≠ .invalid ∧ exec (.call 6) rich = .next { rich with stack := [2, 65535], pc := 6 } ∧
    ({ State.reset with stack := [2, 65535] } : State).stack = [2, 65535] := ⟨by decide, rfl, rfl⟩
theorem witness_OutEmitsTheLowByte : val 32775 rich = .ok 40000 := by decide
theorem witness_InOutcomes :
    dst 32775 = .ok (7 : Fin 8).val ∧ rich.inp = 255 :: [] ∧
    (({ rich with inp := [], inpEnded := true } : State).inp = [] ∧
      ({ rich with inp := [], inpEnded := true } : State).inpEnded = true) ∧
    State.reset.inp = [] ∧ State.reset.inpEnded = false := by decide
theorem witness_InOutcomes_waits :
    dst 32775 = .ok (7 : Fin 8).val ∧ (loaded [20, 32775]).inp = [] ∧ (loaded [20, 32775]).inpEnded = false ∧
    (loaded [20, 32775]).runstate = .running ∧
    decodeAt (loaded [20, 32775]).pc (loaded [20, 32775]).heap = .ok (.inb 32775, 2) :=
  ⟨by decide, rfl, rfl, rfl, rfl⟩
theorem witness_IllegalDestinationFaultsFirst :
    destWord (.inb 32776) = some 32776 ∧ 32775 < (32776 : Word).toNat ∧ destWord (.add 32767 40000 0) = some 32767 ∧
    (32767 : Word).toNat < 32768 := by decide
theorem witness_InvalidValueOperandFaults_three :
    Instr.mod 32768 32776 0 ∈ [Instr.eq 32768 32776 0, .gt 32768 32776 0, .add 32768 32776 0, .mult 32768 32776 0,
      .mod 32768 32776 0, .and 32768 32776 0, .or 32768 32776 0] ∧
    kind 32768 = .register ∧ kind 32776 = .invalid ∧ kind 32775 ≠ .invalid ∧ kind 65535 = .invalid := by decide
theorem witness_InvalidValueOperandFaults_others :
    (Instr.rmem 32768 32776 ∈ [Instr.set 32768 32776, .not 32768 32776, .rmem 32768 32776] ∧ kind 32768 = .register ∧
      kind 32776 = .invalid) ∧
    Instr.wmem 32776 5 ∈ [Instr.push 32776, .jmp 32776, .call 32776, .out 32776, .jt 32776 5, .jf 32776 5, .wmem 32776 5] ∧
    kind 32775 ≠ .invalid ∧ (val 1 rich = .ok 1 ∧ (1 : Word).toNat ≠ 0) ∧ val 0 rich = .ok 0 ∧ (0 : Word).toNat = 0 := by
  decide
theorem witness_EffectFaultsAreThoseOfTheTable :
    rich.runstate = .running ∧ exec (.mod 32768 1 0) rich = .next (takeFault .divisionByZero rich) ∧
    (takeFault .divisionByZero rich).runstate = .faulted := ⟨by decide, rfl, rfl⟩
theorem witness_WellFormedInstructionsFaultOnlyOnTheirOwnTest :
    (Instr.rmem 32768 32768).wellFormed = true ∧ rich.runstate = .running ∧
    exec (.rmem 32768 32768) rich = .next (takeFault (.addressOutOfBounds 32768) rich) ∧
    (takeFault (.addressOutOfBounds 32768) rich).runstate = .faulted := ⟨by decide, by decide, rfl, rfl⟩
theorem witness_OnlyTheDestinationRegisterChanges :
    exec (.set 32775 5) rich = .next ((rich.advance 3).setReg 7 5) ∧
    ∀ a, destWord (.set 32775 5) = some a → a.toNat ≠ 32768 + (6 : Fin 8).val :=
  ⟨rfl, fun a h => by cases h; decide⟩
theorem witness_OnlyWmemChangesTheHeapAndOneCell :
    exec (.wmem 32767 5) rich = .next { rich.advance 3 with heap := rich.heap.write 32767 5 } ∧
    ∀ a b addr, Instr.wmem 32767 5 = .wmem a b → val a rich = .ok addr → addr.toNat ≠ 32766 :=
  ⟨rfl, fun a b addr h h' => by cases h; cases h'; decide⟩

/-- A completed next state of any instruction meets the frames of the stack, of the streams and of the run state. -/
theorem witness_frames :
    exec (.pop 32768) rich = .next (({ rich.advance 2 with stack := [] } : State).setReg 0 65535) ∧
    exec (.out 65) rich = .next (emit 65 (rich.advance 2)) ∧ exec .halt rich = .next (rich.advance 1).halt :=
  ⟨rfl, rfl, rfl⟩
theorem witness_OnlyControlTransfersAssignTheCounter :
    exec (.out 65) rich = .next (emit 65 (rich.advance 2)) ∧ (emit 65 (rich.advance 2)).runstate ≠ .faulted ∧
    ∀ a b, Instr.out 65 ≠ .jmp a ∧ Instr.out 65 ≠ .jt a b ∧ Instr.out 65 ≠ .jf a b ∧ Instr.out 65 ≠ .call a ∧
      Instr.out 65 ≠ .ret :=
  ⟨rfl, by decide, by simp⟩
theorem witness_RangesOfRegisterWriters_arith :
    exec (.add 32775 32767 32767) rich = .next ((rich.advance 4).setReg 7 32766) ∧
    ((rich.advance 4).setReg 7 32766).runstate ≠ .faulted := ⟨rfl, by simp; decide⟩
theorem witness_RangesOfRegisterWriters_index : (32775 : Word).toNat = 32768 + (7 : Fin 8).val := by decide
theorem witness_RangesOfRegisterWriters_compare :
    exec (.gt 32775 1 0) rich = .next ((rich.advance 4).setReg 7 1) := rfl
theorem witness_RangesOfRegisterWriters_input :
    exec (.inb 32775) rich = .next (({ rich.advance 2 with inp := [] } : State).setReg 7 255) := by
  have h : dst 32775#16 = .ok 7 := by decide
  have hi : rich.inp = [255] := rfl
  change execInb 32775#16 rich = _
  simp [execInb, h, nextInput, hi, writeRegister, conclude, zeroExtend16, State.advance]

/-- `rich` meets the invariant and steps; so does a state that its step faults in. -/
theorem witness_StepKeepsInv :
    rich.Inv ∧ step rich = .next (rich.advance 1) ∧
    (atTop 22).Inv ∧ step (atTop 22) = .next (takeFault (.unknownOpcode 22) (atTop 22)) :=
  ⟨⟨by decide, fun h => (nomatch h), fun _ => rfl⟩, rfl, ⟨by decide, fun h => (nomatch h), fun _ => rfl⟩, rfl⟩
theorem witness_HostMovesKeepInv :
    State.reset.Inv ∧ hostMove .start State.reset = some { State.reset with runstate := .running } ∧
    hostMove (.load [65535]) State.reset = some { State.reset with heap := [(0, 65535)], imageLoaded := true } ∧
    step (loaded [20, 32768]) = .fault .noStepAwaitingInput ∧
    hostMove (.input 7) (loaded [20, 32768]) = some { loaded [20, 32768] with inp := [7] } :=
  ⟨⟨by decide, fun h => (nomatch h), fun _ => rfl⟩, rfl, rfl, rfl, rfl⟩

/-- A run from reset that is not empty: load, start, one step into a fault. -/
theorem witness_ReachableRecordsAreReal :
    Reachable (takeFault (.unknownOpcode 22) (loaded [22])) :=
  .step (.host .start (.host (.load [22]) .reset rfl) rfl) rfl
theorem witness_FaultsArePrecise :
    step (atTop 22) = .next (takeFault (.unknownOpcode 22) (atTop 22)) ∧
    (takeFault (.unknownOpcode 22) (atTop 22)).runstate = .faulted := ⟨rfl, rfl⟩
theorem witness_CleanEndOnlyByHaltOrEmptyRet :
    (step (atTop 0) = .next ((atTop 0).advance 1).halt ∧ ((atTop 0).advance 1).halt.CleanEnd) ∧
    step (atTop 18) = .next ((atTop 18).advance 1).halt ∧ ((atTop 18).advance 1).halt.CleanEnd :=
  ⟨⟨rfl, rfl⟩, rfl, rfl⟩

/-- For each clause a stored word of 21, 0 and 22, in the last cell. -/
theorem witness_StoreIsSeenByTheNextFetch :
    (loadedAt 32764 []).runstate = .running ∧ val 32767 (loadedAt 32764 []) = .ok 32767 ∧
    (32767 : Word).toNat < 32768 ∧ (loadedAt 32764 []).pc + 3 = 32767 ∧
    val 21 (loadedAt 32764 []) = .ok 21 ∧ val 0 (loadedAt 32764 []) = .ok 0 ∧ val 22 (loadedAt 32764 []) = .ok 22 ∧
    21 < (22 : Word).toNat := by decide
theorem witness_StoreIsSeenByTheNextFetch_executes :
    exec (.wmem 32767 21) (loadedAt 32764 []) =
      .next { (loadedAt 32764 []).advance 3 with heap := [(32767, 21)] } := rfl
theorem witness_OutputHistoryDoesNotInfluence :
    step (loaded [19, 65]) = .next (emit 65 ((loaded [19, 65]).advance 2)) := rfl
theorem witness_LoadThenStart :
    ([65535, 32776] : List Word).length ≤ 32768 ∧
    hostMove (.reset [104] true) rich = some { State.reset with inp := [104], inpEnded := true } := ⟨by decide, rfl⟩
theorem witness_LongImageFaultsAtTheLoad :
    State.reset.runstate = .ready ∧ State.reset.imageLoaded = false ∧ 32768 < (List.replicate 32769 (0 : Word)).length ∧
    rich.runstate ≠ .ready ∧ ({ State.reset with imageLoaded := true } : State).imageLoaded = true :=
  ⟨rfl, rfl, by rw [List.length_replicate]; decide, by decide, rfl⟩
theorem witness_ImageWordsAreLittleEndian :
    ([1] : List Byte).length % 2 = 1 ∧ ([1, 2] : List Byte).length % 2 = 0 := by decide

end Sys2Proof.Tests
end

/-! SUPPORT. What the instructions do, said once for all 22: `exec_next_cases`. The frames, the invariant and the clean ends
are read off from it. -/

namespace Sys2Proof.Machine

/-- `Writes s i a v`: from `s` the instruction `i` writes the word `v`, a result of its operands and the heap, to its
destination `a`. `POP` and `IN` have constructors of their own in `Completes`, since they take the word from elsewhere. -/
inductive Writes (s : State) : Instr → Word → Word → Prop where
  | set {a b vb : Word} (hb : val b s = .ok vb) : Writes s (.set a b) a vb
  | eq {a b c vb vc : Word} (hb : val b s = .ok vb) (hc : val c s = .ok vc) :
    Writes s (.eq a b c) a (compareEq vb vc)
  | gt {a b c vb vc : Word} (hb : val b s = .ok vb) (hc : val c s = .ok vc) :
    Writes s (.gt a b c) a (compareGt vb vc)
  | add {a b c vb vc : Word} (hb : val b s = .ok vb) (hc : val c s = .ok vc) :
    Writes s (.add a b c) a (aluAdd vb vc)
  | mult {a b c vb vc : Word} (hb : val b s = .ok vb) (hc : val c s = .ok vc) :
    Writes s (.mult a b c) a (aluMult vb vc)
  | mod {a b c vb vc : Word} (hb : val b s = .ok vb) (hc : val c s = .ok vc) (hne : vc ≠ 0) :
    Writes s (.mod a b c) a (reduce (vb.toNat % vc.toNat))
  | and {a b c vb vc : Word} (hb : val b s = .ok vb) (hc : val c s = .ok vc) :
    Writes s (.and a b c) a (aluAnd vb vc)
  | or {a b c vb vc : Word} (hb : val b s = .ok vb) (hc : val c s = .ok vc) :
    Writes s (.or a b c) a (aluOr vb vc)
  | not {a b vb : Word} (hb : val b s = .ok vb) : Writes s (.not a b) a (aluNot vb)
  | rmem {a b addr : Word} (hb : val b s = .ok addr) (hlt : addr.toNat < 32768) :
    Writes s (.rmem a b) a (s.heap.read addr.toNat)

/-- `Completes s i t`: the instruction `i`, begun in `s`, completes without a fault in `t`. -/
inductive Completes (s : State) : Instr → State → Prop where
  | halt : Completes s .halt (s.advance 1).halt
  | noop : Completes s .noop (s.advance 1)
  | result {i : Instr} {a v : Word} {j : Fin 8} (hw : Writes s i a v) (hj : a.toNat = 32768 + j.val) :
    Completes s i ((s.advance (instrLength i)).setReg j v)
  | push {a v : Word} (ha : val a s = .ok v) : Completes s (.push a) (pushWord v (s.advance 2))
  | pop {a v : Word} {rest : List Word} {j : Fin 8} (hst : s.stack = v :: rest) (hj : a.toNat = 32768 + j.val) :
    Completes s (.pop a) (({ s.advance 2 with stack := rest } : State).setReg j v)
  | jmp {a v : Word} (ha : val a s = .ok v) : Completes s (.jmp a) (s.jumpTo v)
  | jtTaken {a b va v : Word} (ha : val a s = .ok va) (ht : isNonzero va = true) (hb : val b s = .ok v) :
    Completes s (.jt a b) (s.jumpTo v)
  | jtUntaken {a b va : Word} (ha : val a s = .ok va) (ht : isNonzero va = false) : Completes s (.jt a b) (s.advance 3)
  | jfTaken {a b va v : Word} (ha : val a s = .ok va) (ht : isZero va = true) (hb : val b s = .ok v) :
    Completes s (.jf a b) (s.jumpTo v)
  | jfUntaken {a b va : Word} (ha : val a s = .ok va) (ht : isZero va = false) : Completes s (.jf a b) (s.advance 3)
  | wmem {a b addr v : Word} (ha : val a s = .ok addr) (hb : val b s = .ok v) (hlt : addr.toNat < 32768) :
    Completes s (.wmem a b) { s.advance 3 with heap := s.heap.write addr.toNat v }
  | call {a v : Word} (ha : val a s = .ok v) : Completes s (.call a) ((pushWord (s.advance 2).pc s).jumpTo v)
  | ret {v : Word} {rest : List Word} (hst : s.stack = v :: rest) :
    Completes s .ret (({ s with stack := rest } : State).jumpTo v)
  | retEmpty (hst : s.stack = []) : Completes s .ret (s.advance 1).halt
  | out {a v : Word} (ha : val a s = .ok v) : Completes s (.out a) (emit (lowByte v) (s.advance 2))
  | inb {a : Word} {b : Byte} {rest : List Byte} {j : Fin 8} (hin : s.inp = b :: rest) (hj : a.toNat = 32768 + j.val) :
    Completes s (.inb a) (({ s.advance 2 with inp := rest } : State).setReg j (zeroExtend16 b))

/-- Everything `exec` can answer as a next state, for all 22 instructions: a fault of the table of 60_exceptions.md R152, or
the completed instruction. -/
theorem exec_next_cases {i : Instr} {s t : State} (h : exec i s = .next t) :
    TookFault (effectFaults i) s t ∨ Completes s i t := by
  cases i with
  | halt => exact .inr (execHalt_next h ▸ .halt)
  | noop => exact .inr (execNoop_next h ▸ .noop)
  | set => exact (execSet_next h).imp_right fun ⟨_, _, hj, hb, ht⟩ => ht ▸ .result (.set hb) hj
  | not => exact (execNot_next h).imp_right fun ⟨_, _, hj, hb, ht⟩ => ht ▸ .result (.not hb) hj
  | eq => exact (execEq_next h).imp_right fun ⟨_, _, _, hj, hb, hc, ht⟩ => ht ▸ .result (.eq hb hc) hj
  | gt => exact (execGt_next h).imp_right fun ⟨_, _, _, hj, hb, hc, ht⟩ => ht ▸ .result (.gt hb hc) hj
  | add => exact (execAdd_next h).imp_right fun ⟨_, _, _, hj, hb, hc, ht⟩ => ht ▸ .result (.add hb hc) hj
  | mult => exact (execMult_next h).imp_right fun ⟨_, _, _, hj, hb, hc, ht⟩ => ht ▸ .result (.mult hb hc) hj
  | mod => exact (execMod_next h).imp_right fun ⟨_, _, _, hj, hb, hc, hne, ht⟩ => ht ▸ .result (.mod hb hc hne) hj
  | and => exact (execAnd_next h).imp_right fun ⟨_, _, _, hj, hb, hc, ht⟩ => ht ▸ .result (.and hb hc) hj
  | or => exact (execOr_next h).imp_right fun ⟨_, _, _, hj, hb, hc, ht⟩ => ht ▸ .result (.or hb hc) hj
  | rmem => exact (execRmem_next h).imp_right fun ⟨_, _, hj, hb, hlt, ht⟩ => ht ▸ .result (.rmem hb hlt) hj
  | wmem => exact (execWmem_next h).imp_right fun ⟨_, _, ha, hb, hlt, ht⟩ => ht ▸ .wmem ha hb hlt
  | push => exact (execPush_next h).imp_right fun ⟨_, ha, ht⟩ => ht ▸ .push ha
  | pop => exact (execPop_next h).imp_right fun ⟨_, _, _, hj, hst, ht⟩ => ht ▸ .pop hst hj
  | jmp => exact (execJmp_next h).imp_right fun ⟨_, ha, ht⟩ => ht ▸ .jmp ha
  | jt =>
    rcases execJt_next h with hf | ⟨va, ha, ⟨ht, v, hb, rfl⟩ | ⟨ht, rfl⟩⟩
    · exact .inl hf
    · exact .inr (.jtTaken ha ht hb)
    · exact .inr (.jtUntaken ha ht)
  | jf =>
    rcases execJf_next h with hf | ⟨va, ha, ⟨ht, v, hb, rfl⟩ | ⟨ht, rfl⟩⟩
    · exact .inl hf
    · exact .inr (.jfTaken ha ht hb)
    · exact .inr (.jfUntaken ha ht)
  | call => exact (execCall_next h).imp_right fun ⟨_, ha, ht⟩ => ht ▸ .call ha
  | ret =>
    rcases execRet_next h with ⟨hst, rfl⟩ | ⟨v, rest, hst, rfl⟩
    · exact .inr (.retEmpty hst)
    · exact .inr (.ret hst)
  | out => exact (execOut_next h).imp_right fun ⟨_, ha, ht⟩ => ht ▸ .out ha
  | inb => exact (execInb_next h).imp_right fun ⟨_, _, _, hj, hin, ht⟩ => ht ▸ .inb hin hj

theorem TookFault.runstate {ks : List FaultKind} {s t : State} (h : TookFault ks s t) : t.runstate = .faulted := by
  obtain ⟨e, -, -, rfl⟩ := h
  rfl

/-- An instruction whose next state is not `Faulted` completed. -/
theorem completes_of_not_faulted {i : Instr} {s t : State} (h : exec i s = .next t) (hr : t.runstate ≠ .faulted) :
    Completes s i t :=
  (exec_next_cases h).resolve_left fun hf => hr hf.runstate

/-! ### What a completed instruction leaves unchanged -/

theorem Writes.destWord_eq {s : State} {i : Instr} {a v : Word} (h : Writes s i a v) : destWord i = some a := by
  cases h <;> rfl

/-- A write to register `j` leaves every register alone that the word naming `j` does not name. -/
theorem reg_setReg_of_not_named {a v : Word} {j k : Fin 8} (s : State) (hj : a.toNat = 32768 + j.val)
    (hk : a.toNat ≠ 32768 + k.val) : (s.setReg j v).reg k = s.reg k :=
  State.reg_setReg_other (fun e => hk (by rw [hj, e])) v s

/-- Only the register that the destination operand names changes (10_state.md R23). -/
theorem Completes.reg_frame {s t : State} {i : Instr} (h : Completes s i t) {k : Fin 8}
    (hk : ∀ a, destWord i = some a → a.toNat ≠ 32768 + k.val) : t.reg k = s.reg k := by
  cases h with
  | result hw hj => exact reg_setReg_of_not_named _ hj (hk _ hw.destWord_eq)
  | pop _ hj => exact reg_setReg_of_not_named _ hj (hk _ rfl)
  | inb _ hj => exact reg_setReg_of_not_named _ hj (hk _ rfl)
  | _ => rfl

/-- `OUT` appends one byte, `IN` takes one, and nothing else moves the streams (10_state.md R36). -/
theorem Completes.stream_frame {s t : State} {i : Instr} (h : Completes s i t) :
    t.inpEnded = s.inpEnded ∧
    (t.out = s.out ∨ ∃ a b, i = .out a ∧ t.out = s.out ++ [b]) ∧
    (t.inp = s.inp ∨ ∃ a b, i = .inb a ∧ s.inp = b :: t.inp) := by
  cases h with
  | out ha => exact ⟨rfl, .inr ⟨_, _, rfl, rfl⟩, .inl rfl⟩
  | inb hin _ => exact ⟨rfl, .inl rfl, .inr ⟨_, _, rfl, hin⟩⟩
  | _ => exact ⟨rfl, .inl rfl, .inl rfl⟩

/-- The fault record and the host's mark of the load stay. -/
theorem Completes.record_frame {s t : State} {i : Instr} (h : Completes s i t) :
    t.fault = s.fault ∧ t.imageLoaded = s.imageLoaded := by
  cases h <;> exact ⟨rfl, rfl⟩

/-- The run state stays, but for the clean ends: `HALT`, and `RET` on an empty stack (10_state.md R30, R42). -/
theorem Completes.runstate_frame {s t : State} {i : Instr} (h : Completes s i t) :
    t.runstate = s.runstate ∨ (t = (s.advance 1).halt ∧ (i = .halt ∨ (i = .ret ∧ s.stack = []))) := by
  cases h with
  | halt => exact .inr ⟨rfl, .inl rfl⟩
  | retEmpty hst => exact .inr ⟨rfl, .inr ⟨rfl, hst⟩⟩
  | _ => exact .inl rfl

/-- The heap stays canonical: only `WMEM` writes it, below address 32768. -/
theorem Completes.heap_wf {s t : State} {i : Instr} (h : Completes s i t) (hwf : s.heap.wf = true) :
    t.heap.wf = true := by
  cases h with
  | wmem _ _ hlt => exact Memory.wf_write hwf hlt _
  | _ => exact hwf

/-- Only the control transfers assign the counter (10_state.md R28). -/
theorem Completes.pc_eq {s t : State} {i : Instr} (h : Completes s i t)
    (hi : ∀ a b, i ≠ .jmp a ∧ i ≠ .jt a b ∧ i ≠ .jf a b ∧ i ≠ .call a ∧ i ≠ .ret) :
    t.pc = s.pc + BitVec.ofNat 16 (instrLength i) := by
  cases h with
  | jmp | jtTaken | jtUntaken | jfTaken | jfUntaken | call | ret | retEmpty => simp at hi
  | _ => rfl

end Sys2Proof.Machine

/-! The frames of the registers, the streams, the run state and the counter, and the ranges of the register writers. -/

namespace Sys2Proof.Machine

/-- Settles O42: a fault leaves the registers, and a completed instruction writes only where its destination says. -/
theorem onlyTheDestinationRegisterChanges : Obligations.OnlyTheDestinationRegisterChanges := by
  intro i s t j h hj
  rcases exec_next_cases h with ⟨e, -, -, rfl⟩ | hc
  · exact reg_takeFault e s j
  · exact hc.reg_frame hj

/-- Settles O45: a fault leaves the streams, and a completed instruction moves them by at most one byte. -/
theorem streamsMoveOneByteByOutAndIn : Obligations.StreamsMoveOneByteByOutAndIn := by
  intro i s t h
  rcases exec_next_cases h with ⟨e, -, -, rfl⟩ | hc
  · exact ⟨rfl, .inl rfl, .inl rfl⟩
  · exact hc.stream_frame

/-- Settles O46, from the frames of the record and of the run state. -/
theorem runStateAndRecordFrame : Obligations.RunStateAndRecordFrame := by
  intro i s t h
  rcases exec_next_cases h with ⟨e, -, -, rfl⟩ | hc
  · exact ⟨rfl, .inl ⟨e, rfl⟩⟩
  · obtain ⟨hfault, hloaded⟩ := hc.record_frame
    refine ⟨hloaded, .inr ?_⟩
    rcases hc.runstate_frame with hr | ⟨ht, hi⟩
    · exact .inl ⟨hfault, hr⟩
    · exact .inr ⟨hfault, ht ▸ rfl, hi⟩

/-- Settles O47, from what a completed instruction does to the counter. -/
theorem onlyControlTransfersAssignTheCounter : Obligations.OnlyControlTransfersAssignTheCounter := by
  intro i s t h hr hi
  rw [length_encode]
  exact (completes_of_not_faulted h hr).pc_eq hi

/-! ### The ranges of 10_state.md R22 -/

theorem reduce_le (n : Nat) : (reduce n).toNat ≤ 32767 := by
  simp only [reduce, BitVec.toNat_ofNat]
  omega

theorem mask15_le (v : Word) : (mask15 v).toNat ≤ 32767 := by
  simpa [mask15] using Nat.and_le_right (n := v.toNat) (m := 32767)

theorem truthWord_le (p : Bool) : (truthWord p).toNat ≤ 1 := by
  cases p <;> decide

theorem zeroExtend16_le (b : Byte) : (zeroExtend16 b).toNat ≤ 255 := by
  have hb : b.toNat < 256 := b.isLt
  simp only [zeroExtend16, BitVec.toNat_setWidth]
  omega

/-- The arithmetic and logic instructions write at most 32767. -/
theorem Writes.alu_le {s : State} {i : Instr} {a b c a' v : Word} (h : Writes s i a' v)
    (hi : i ∈ [Instr.add a b c, .mult a b c, .mod a b c, .and a b c, .or a b c, .not a b]) : v.toNat ≤ 32767 := by
  cases h with
  | add | mult | mod => exact reduce_le _
  | and | or | not => exact mask15_le _
  | set | eq | gt | rmem => simp at hi

/-- The comparisons write at most 1. -/
theorem Writes.compare_le {s : State} {i : Instr} {a b c a' v : Word} (h : Writes s i a' v)
    (hi : i ∈ [Instr.eq a b c, .gt a b c]) : v.toNat ≤ 1 := by
  cases h with
  | eq | gt => exact truthWord_le _
  | _ => simp at hi

/-- The register that the destination word names holds the result, or the byte of an `IN`; of `POP` nothing is said. -/
theorem Completes.reg_destination {s t : State} {i : Instr} {a : Word} {j : Fin 8} (h : Completes s i t)
    (hd : destWord i = some a) (ha : a.toNat = 32768 + j.val) :
    Writes s i a (t.reg j) ∨ i = .pop a ∨ ∃ b, i = .inb a ∧ t.reg j = zeroExtend16 b := by
  have same : ∀ {k : Fin 8}, a.toNat = 32768 + k.val → k = j := fun hk => Fin.ext (by omega)
  cases h with
  | result hw hj =>
    cases hw.destWord_eq.symm.trans hd
    cases same hj
    rw [State.reg_setReg_same]
    exact .inl hw
  | pop =>
    cases hd
    exact .inr (.inl rfl)
  | inb _ hj =>
    cases hd
    cases same hj
    exact .inr (.inr ⟨_, rfl, State.reg_setReg_same ..⟩)
  | _ => cases hd

/-- Settles O48: each range is that of the function whose result is written. -/
theorem rangesOfRegisterWriters : Obligations.RangesOfRegisterWriters := by
  intro s t j a b c i h hr ha
  have hc := completes_of_not_faulted h hr
  refine ⟨fun hi => ?_, fun hi => ?_, ?_⟩
  · have hd : destWord i = some a := by fin_cases hi <;> rfl
    rcases hc.reg_destination hd ha with hw | rfl | ⟨_, rfl, -⟩
    · exact hw.alu_le hi
    all_goals simp at hi
  · have hd : destWord i = some a := by fin_cases hi <;> rfl
    rcases hc.reg_destination hd ha with hw | rfl | ⟨_, rfl, -⟩
    · exact hw.compare_le hi
    all_goals simp at hi
  · rintro rfl
    rcases hc.reg_destination rfl ha with hw | h | ⟨byte, -, hreg⟩
    · cases hw
    · cases h
    · exact hreg ▸ zeroExtend16_le byte

end Sys2Proof.Machine

/-! The step of 10_state.md R33, the invariant, the clean ends and the states reached from reset. -/

namespace Sys2Proof.Machine

/-- Settles O5, by the definition of the step. -/
theorem stepRunsTheDecodedInstruction : Obligations.StepRunsTheDecodedInstruction := by
  intro s i next hr hd
  simp only [step, hr, hd]

/-- Settles O6, by the definition of the step. -/
theorem stepTakesTheDecodeFault : Obligations.StepTakesTheDecodeFault := by
  intro s e hr hd
  simp only [step, hr, hd, conclude_error]

/-- Settles O7, by the definition of the step. -/
theorem noStepOutsideRunning : Obligations.NoStepOutsideRunning := by
  intro s
  refine ⟨fun hr => ?_, fun hr => ?_, fun hr => ?_⟩ <;> simp only [step, hr]

/-! ### The invariant -/

/-- The decoder raises only faults that are real, and only `AddressOutOfBounds` when the counter is past the heap. -/
theorem decodeAt_error_real {pc : Word} {m : Memory} {e : Trap} (h : decodeAt pc m = .error e) :
    e.Real ∧ (pc.toNat < 32768 ∨ e.kind = .addressOutOfBounds) := by
  rcases decodeAt_cases pc m with ⟨hpc, h'⟩ | ⟨hpc, hop, h'⟩ | ⟨f, hpc, -, ⟨-, h'⟩ | ⟨-, h'⟩⟩ <;>
    cases h'.symm.trans h
  · exact ⟨hpc, .inr rfl⟩
  · exact ⟨hop, .inl hpc⟩
  · exact ⟨Nat.le_refl 32768, .inl hpc⟩

/-- The record of a real fault at an address inside the heap, or of a real `AddressOutOfBounds` anywhere, fits its kind. -/
theorem Trap.Real.fits {e : Trap} (he : e.Real) {addr : Word}
    (ha : addr.toNat < 32768 ∨ e.kind = .addressOutOfBounds) :
    ({ kind := e.kind, addr := addr, info := e.info } : FaultRecord).Fits := by
  cases e with
  | addressOutOfBounds a => exact he
  | registerIndexOutOfBounds => exact he
  | unknownOpcode | notARegister | invalidOperand => exact ⟨he, ha.resolve_right nofun⟩
  | stackUnderflow | divisionByZero | inputExhausted => exact ⟨rfl, ha.resolve_right nofun⟩

/-- Taking a fault whose record fits its kind keeps the invariant. -/
theorem takeFaultAt_inv {addr : Word} {e : Trap} {s : State} (hwf : s.heap.wf = true)
    (hfit : ({ kind := e.kind, addr := addr, info := e.info } : FaultRecord).Fits) : (takeFaultAt addr e s).Inv :=
  ⟨hwf, fun _ => hfit, fun hr => absurd rfl hr⟩

/-- The invariant of a state that is not `Faulted`. -/
theorem inv_of_not_faulted {s : State} (hwf : s.heap.wf = true) (hr : s.runstate ≠ .faulted) (hf : s.fault = .clear) :
    s.Inv :=
  ⟨hwf, fun h => absurd h hr, fun _ => hf⟩

/-- Running an instruction from inside the heap keeps the invariant. -/
theorem exec_inv {i : Instr} {s t : State} (hs : s.Inv) (hr : s.runstate = .running) (hpc : s.pc.toNat < 32768)
    (h : exec i s = .next t) : t.Inv := by
  obtain ⟨hwf, -, hclear⟩ := hs
  rcases exec_next_cases h with ⟨e, he, -, rfl⟩ | hc
  · exact takeFaultAt_inv hwf (he.fits (.inl hpc))
  · have hnf : t.runstate ≠ .faulted := by
      rcases hc.runstate_frame with hrt | ⟨rfl, -⟩
      · simp [hrt, hr]
      · simp
    exact inv_of_not_faulted (hc.heap_wf hwf) hnf (hc.record_frame.1.trans (hclear (by simp [hr])))

/-- Settles O50: the decode fault's record fits its kind, and `exec` keeps the invariant. -/
theorem stepKeepsInv : Obligations.StepKeepsInv := by
  intro s t hs h
  obtain ⟨hr, ⟨e, hd, rfl⟩ | ⟨i, next, hd, hx⟩⟩ := step_next_cases h
  · obtain ⟨he, hpc⟩ := decodeAt_error_real hd
    exact takeFaultAt_inv hs.1 (he.fits hpc)
  · exact exec_inv hs hr (pc_lt_of_decodeAt_ok hd) hx

/-! ### The clean ends -/

/-- Settles O54: a fault is no clean end, and a completed instruction that ends in `Halted` is one of the two. -/
theorem cleanEndOnlyByHaltOrEmptyRet : Obligations.CleanEndOnlyByHaltOrEmptyRet := by
  intro s t h (hend : t.runstate = .halted)
  obtain ⟨hr, ⟨e, -, rfl⟩ | ⟨i, next, hd, hx⟩⟩ := step_next_cases h
  · cases hend
  · rcases (completes_of_not_faulted hx (by simp [hend])).runstate_frame with hrt | ⟨rfl, hi⟩
    · simp [hrt, hr] at hend
    · refine ⟨rfl, next, ?_⟩
      rcases hi with rfl | ⟨rfl, hst⟩
      · exact .inl hd
      · exact .inr ⟨hd, hst⟩

/-! ### The host's moves and the states reached from reset -/

/-- In `Ready` the record is clear. -/
theorem State.Inv.clear_of_ready {s : State} (hs : s.Inv) (hr : s.runstate = .ready) : s.fault = .clear :=
  hs.2.2 (by simp [hr])

theorem hostReset_inv (bs : List Byte) (ended : Bool) (s : State) : (hostReset bs ended s).Inv :=
  inv_of_not_faulted rfl nofun rfl

theorem hostLoad_inv {words : List Word} {s t : State} (hs : s.Inv) (h : hostLoad words s = some t) : t.Inv := by
  obtain ⟨hr, hl, -⟩ := hostLoad_eq_some h
  simp only [hostLoad, hr, hl] at h
  split at h
  · cases h
  · split at h <;> cases h
    · exact inv_of_not_faulted (layWords_wf hs.1) nofun (hs.clear_of_ready hr)
    · exact takeFaultAt_inv (layWords_wf hs.1) (Nat.le_refl 32768)

theorem hostStart_inv {s : State} (hs : s.Inv) : (hostStart s).Inv := by
  unfold hostStart
  split
  · next hr => exact inv_of_not_faulted hs.1 nofun (hs.clear_of_ready hr)
  all_goals exact hs

theorem hostMove_inv {m : HostMove} {s t : State} (hs : s.Inv) (h : hostMove m s = some t) : t.Inv := by
  cases m with
  | reset bs ended =>
    cases h
    exact hostReset_inv bs ended s
  | load words => exact hostLoad_inv hs h
  | start =>
    cases h
    exact hostStart_inv hs
  | input b =>
    obtain ⟨-, rfl⟩ := hostInput_eq_some.mp h
    exact hs
  | inputEnd =>
    obtain ⟨-, rfl⟩ := hostInputEnd_eq_some.mp h
    exact hs

/-- Settles O51: each move keeps the invariant, and the conditions are those of the three moves' own laws. -/
theorem hostMovesKeepInv : Obligations.HostMovesKeepInv := by
  refine ⟨fun m s t => hostMove_inv, fun words s t h => ?_, fun b s => ?_, fun s => ?_⟩
  · obtain ⟨hr, hl, hloaded⟩ := hostLoad_eq_some h
    refine ⟨hr, hl, fun again => Option.eq_none_iff_forall_ne_some.mpr fun u hu => ?_⟩
    obtain ⟨-, hnot, -⟩ := hostLoad_eq_some hu
    simp [hloaded] at hnot
  · simp [hostMove, hostInput_eq_some]
  · simp [hostMove, hostInputEnd_eq_some]

theorem reachable_inv {s : State} (h : Reachable s) : s.Inv :=
  h.induct (inv_of_not_faulted rfl nofun rfl) stepKeepsInv fun _ _ _ => hostMove_inv

/-- A record that fits its kind is of a kind the block records. -/
theorem FaultRecord.Fits.kind_ne {r : FaultRecord} (h : r.Fits) :
    r.kind ≠ .noFault ∧ r.kind ≠ .malformedImage ∧ r.kind ≠ .registerIndexOutOfBounds := by
  refine ⟨fun hk => ?_, fun hk => ?_, fun hk => ?_⟩ <;> simp [FaultRecord.Fits, hk] at h

/-- Settles O52: the invariant holds in every reachable state, and it bounds the record's kind. -/
theorem reachableRecordsAreReal : Obligations.ReachableRecordsAreReal := by
  intro s h
  obtain ⟨-, hfits, hclear⟩ := reachable_inv h
  by_cases hr : s.runstate = .faulted
  · obtain ⟨hno, himage, hindex⟩ := (hfits hr).kind_ne
    exact ⟨hindex, himage, by simp [hno, hr]⟩
  · simp [hclear hr, hr, FaultRecord.clear]

end Sys2Proof.Machine

/-! The output history: everything commutes with putting bytes in front of it, so nothing depends on it. -/

namespace Sys2Proof.Machine

/-- `s` with the bytes `p` emitted before everything it has emitted. -/
def State.afterOutput (p : List Byte) (s : State) : State := { s with out := p ++ s.out }

/-- The answer with its next state changed by `f`. -/
def mapNext (f : State → State) : Outcome → Outcome
  | .next t => .next (f t)
  | .fault r => .fault r
  | .refused r => .refused r

theorem mapNext_eq_next {f : State → State} {o : Outcome} {t : State} (h : mapNext f o = .next t) :
    ∃ u, o = .next u ∧ t = f u := by
  cases o <;> cases h
  exact ⟨_, rfl, rfl⟩

section
variable (p : List Byte) (s : State)

@[simp] theorem afterOutput_runstate : (s.afterOutput p).runstate = s.runstate := rfl
@[simp] theorem afterOutput_pc : (s.afterOutput p).pc = s.pc := rfl
@[simp] theorem afterOutput_heap : (s.afterOutput p).heap = s.heap := rfl

@[simp] theorem val_afterOutput (w : Word) : val w (s.afterOutput p) = val w s := rfl

theorem emit_afterOutput (b : Byte) : emit b (s.afterOutput p) = (emit b s).afterOutput p := by
  simp [emit, State.afterOutput]

theorem writeRegister_afterOutput (idx : Nat) (v : Word) :
    writeRegister idx v (s.afterOutput p) = State.afterOutput p <$> writeRegister idx v s := by
  unfold writeRegister
  split <;> rfl

theorem popWord_afterOutput :
    popWord (s.afterOutput p) = (fun q => (q.1, q.2.afterOutput p)) <$> popWord s := by
  obtain ⟨hst, h⟩ | ⟨v, rest, hst, h⟩ := popWord_cases s
  · rw [h, popWord_nil (s := s.afterOutput p) hst]
    rfl
  · rw [h, popWord_cons (s := s.afterOutput p) hst]
    rfl

theorem nextInput_afterOutput :
    nextInput (s.afterOutput p) = (nextInput s).map fun r => (fun q => (q.1, q.2.afterOutput p)) <$> r := by
  simp only [nextInput, State.afterOutput]
  cases s.inp with
  | nil => by_cases hend : s.inpEnded <;> simp [hend]
  | cons b rest => rfl

theorem conclude_afterOutput {r r' : Except Trap State} (h : r' = State.afterOutput p <$> r) :
    conclude (s.afterOutput p) r' = mapNext (State.afterOutput p) (conclude s r) := by
  cases r <;> cases h <;> rfl

/-! ### The effects -/

theorem unaryEffect_afterOutput (f : Word → Except Trap Word) (a b : Word) :
    unaryEffect f a b (s.afterOutput p) = State.afterOutput p <$> unaryEffect f a b s := by
  simp only [unaryEffect, map_bind, val_afterOutput, ← writeRegister_afterOutput]
  rfl

theorem binaryEffect_afterOutput (f : Word → Word → Except Trap Word) (a b c : Word) :
    binaryEffect f a b c (s.afterOutput p) = State.afterOutput p <$> binaryEffect f a b c s := by
  simp only [binaryEffect, map_bind, val_afterOutput, ← writeRegister_afterOutput]
  rfl

/-- An effect that resolves one value and then changes the state in a way that commutes. -/
theorem val_bind_afterOutput {f : Word → State → State} (w : Word)
    (hf : ∀ v, f v (s.afterOutput p) = (f v s).afterOutput p) :
    (val w (s.afterOutput p) >>= fun v => Except.ok (f v (s.afterOutput p))) =
      State.afterOutput p <$> (val w s >>= fun v => Except.ok (f v s)) := by
  rw [val_afterOutput, map_bind]
  exact congrArg _ (funext fun v => congrArg Except.ok (hf v))

theorem pushEffect_afterOutput (a : Word) :
    pushEffect a (s.afterOutput p) = State.afterOutput p <$> pushEffect a s :=
  val_bind_afterOutput p s (f := fun v s => pushWord v (s.advance 2)) a fun _ => rfl

theorem jumpEffect_afterOutput (a : Word) :
    jumpEffect a (s.afterOutput p) = State.afterOutput p <$> jumpEffect a s :=
  val_bind_afterOutput p s (f := fun v s => s.jumpTo v) a fun _ => rfl

theorem callEffect_afterOutput (a : Word) :
    callEffect a (s.afterOutput p) = State.afterOutput p <$> callEffect a s :=
  val_bind_afterOutput p s (f := fun v s => (pushWord (s.advance 2).pc (s.advance 2)).jumpTo v) a fun _ => rfl

theorem outEffect_afterOutput (a : Word) :
    outEffect a (s.afterOutput p) = State.afterOutput p <$> outEffect a s :=
  val_bind_afterOutput p s (f := fun v s => emit (lowByte v) (s.advance 2)) a fun v =>
    emit_afterOutput p (s.advance 2) (lowByte v)

theorem popEffect_afterOutput (a : Word) :
    popEffect a (s.afterOutput p) = State.afterOutput p <$> popEffect a s := by
  simp only [popEffect, map_bind, popWord_afterOutput, bind_map_left, ← writeRegister_afterOutput]
  rfl

theorem wmemEffect_afterOutput (a b : Word) :
    wmemEffect a b (s.afterOutput p) = State.afterOutput p <$> wmemEffect a b s := by
  simp only [wmemEffect, map_bind, val_afterOutput]
  rfl

theorem condJumpEffect_afterOutput (eager : Bool) (test : Word → Bool) (a b : Word) :
    condJumpEffect eager test a b (s.afterOutput p) = State.afterOutput p <$> condJumpEffect eager test a b s := by
  simp only [condJumpEffect, map_bind, val_afterOutput]
  congr 1
  funext va
  split
  · exact val_bind_afterOutput p s (f := fun v s => s.jumpTo v) b fun _ => rfl
  · split
    · exact val_bind_afterOutput p s (f := fun _ s => s.advance 3) b fun _ => rfl
    · rfl

/-! ### The instructions and the step -/

theorem execRet_afterOutput : execRet (s.afterOutput p) = mapNext (State.afterOutput p) (execRet s) := by
  unfold execRet
  rw [popWord_afterOutput]
  cases popWord s <;> rfl

theorem execInb_afterOutput (a : Word) :
    execInb a (s.afterOutput p) = mapNext (State.afterOutput p) (execInb a s) := by
  unfold execInb
  cases dst a with
  | error e => rfl
  | ok i =>
    simp only [nextInput_afterOutput]
    rcases nextInput s with _ | e | ⟨b, t⟩
    · rfl
    · rfl
    · exact conclude_afterOutput p s (writeRegister_afterOutput p (t.advance 2) i _)

/-- Every instruction commutes with putting bytes in front of the output history. -/
theorem exec_afterOutput (i : Instr) : exec i (s.afterOutput p) = mapNext (State.afterOutput p) (exec i s) := by
  cases i with
  | halt | noop => rfl
  | ret => exact execRet_afterOutput p s
  | inb a => exact execInb_afterOutput p s a
  | set | not | rmem => exact conclude_afterOutput p s (unaryEffect_afterOutput p s ..)
  | eq | gt | add | mult | mod | and | or => exact conclude_afterOutput p s (binaryEffect_afterOutput p s ..)
  | push => exact conclude_afterOutput p s (pushEffect_afterOutput p s _)
  | pop => exact conclude_afterOutput p s (popEffect_afterOutput p s _)
  | jmp => exact conclude_afterOutput p s (jumpEffect_afterOutput p s _)
  | jt | jf => exact conclude_afterOutput p s (condJumpEffect_afterOutput p s ..)
  | wmem => exact conclude_afterOutput p s (wmemEffect_afterOutput p s ..)
  | call => exact conclude_afterOutput p s (callEffect_afterOutput p s _)
  | out => exact conclude_afterOutput p s (outEffect_afterOutput p s _)

/-- So does the step, since the decoder reads the heap only. -/
theorem step_afterOutput : step (s.afterOutput p) = mapNext (State.afterOutput p) (step s) := by
  simp only [step, afterOutput_runstate, afterOutput_pc, afterOutput_heap]
  cases s.runstate with
  | ready | halted | faulted => rfl
  | running =>
    cases decodeAt s.pc s.heap with
    | error e => rfl
    | ok q => exact exec_afterOutput p s q.1

end

/-- Settles O56: both steps are that of the state with no output, with the history put in front. -/
theorem outputHistoryDoesNotInfluence : Obligations.OutputHistoryDoesNotInfluence := by
  intro s t o h
  have hs : State.afterOutput s.out { s with out := [] } = s := by simp [State.afterOutput]
  have ho : State.afterOutput o { s with out := [] } = { s with out := o } := by simp [State.afterOutput]
  rw [← hs, step_afterOutput] at h
  obtain ⟨u, hu, rfl⟩ := mapNext_eq_next h
  refine ⟨u.out, rfl, ?_⟩
  rw [← ho, step_afterOutput, hu]
  rfl

end Sys2Proof.Machine

/-! The heap's operations, the frames of the heap and the stack, a store before a fetch, and the Loader's words
(20_memory.md). -/

namespace Sys2Proof.Machine

/-- Settles O12, from the laws of `memRead`. -/
theorem memReadChecksTheBound : Obligations.MemReadChecksTheBound := fun _ _ =>
  ⟨fun h => memRead_eq_error.mpr ⟨h, rfl⟩, fun h => memRead_eq_ok.mpr ⟨h, rfl⟩⟩

/-- Settles O13, from the laws of `memWrite` and of a read after a write. -/
theorem memWriteStoresOneCell : Obligations.MemWriteStoresOneCell := fun _ _ _ =>
  ⟨fun h => memWrite_eq_error.mpr ⟨h, rfl⟩, fun h =>
    ⟨_, memWrite_eq_ok.mpr ⟨h, rfl⟩, Memory.read_write_same .., fun _ ha => Memory.read_write_other ha ..⟩⟩

/-- Bit 15 of a word says whether it is 32768 or more. -/
theorem getLsbD_15_eq_decide (w : Word) : w.getLsbD 15 = decide (32768 ≤ w.toNat) :=
  w.msb_eq_decide

/-- Bits 14:0 of a word below 32768 are the word. -/
theorem toNat_extractLsb'_of_lt {w : Word} (h : w.toNat < 32768) : (w.extractLsb' 0 15).toNat = w.toNat := by
  simpa using h

/-- Settles O14: bit 15 is the translator's bound. -/
theorem translatorTestsBit15 : Obligations.TranslatorTestsBit15 := by
  intro addr
  rw [getLsbD_15_eq_decide, decide_eq_false_iff_not, decide_eq_true_iff, Nat.not_le]
  exact ⟨fun h => translateAddr_eq_ok.mpr ⟨h, toNat_extractLsb'_of_lt h⟩,
    fun h => translateAddr_eq_error.mpr ⟨h, rfl⟩⟩

/-! ### The frames of the heap and of the stack -/

/-- Only `WMEM` changes the heap, and only the cell that the value of its first operand addresses (20_memory.md R63). -/
theorem Completes.heap_frame {s t : State} {i : Instr} (h : Completes s i t) {k : Nat}
    (hk : ∀ a b addr, i = .wmem a b → val a s = .ok addr → addr.toNat ≠ k) : t.heap.read k = s.heap.read k := by
  cases h with
  | wmem ha _ _ => exact Memory.read_write_other (hk _ _ _ rfl ha).symm _ _
  | _ => rfl

/-- Settles O43: a fault leaves the heap, and a completed `WMEM` writes one cell. -/
theorem onlyWmemChangesTheHeapAndOneCell : Obligations.OnlyWmemChangesTheHeapAndOneCell := by
  intro i s t k h hk
  rcases exec_next_cases h with ⟨e, -, -, rfl⟩ | hc
  · rfl
  · exact hc.heap_frame hk

/-- `PUSH` and `CALL` add one word on top, `POP` and `RET` take the top, and nothing else touches the stack (42_stack.md
R112). -/
theorem Completes.stack_frame {s t : State} {i : Instr} (h : Completes s i t) :
    t.stack = s.stack ∨
    (∃ a v, (i = .push a ∧ val a s = .ok v ∨ i = .call a ∧ v = s.pc + 2) ∧ t.stack = v :: s.stack) ∨
    (∃ v, (i = .ret ∨ ∃ a, i = .pop a) ∧ s.stack = v :: t.stack) := by
  cases h with
  | push ha => exact .inr (.inl ⟨_, _, .inl ⟨rfl, ha⟩, rfl⟩)
  | call => exact .inr (.inl ⟨_, _, .inr ⟨rfl, rfl⟩, rfl⟩)
  | pop hst _ => exact .inr (.inr ⟨_, .inr ⟨_, rfl⟩, hst⟩)
  | ret hst => exact .inr (.inr ⟨_, .inl rfl, hst⟩)
  | _ => exact .inl rfl

/-- Settles O44: a fault leaves the stack, and a completed instruction moves it by at most one word. -/
theorem stackChangesOnlyAtItsTop : Obligations.StackChangesOnlyAtItsTop := by
  intro i s t h
  rcases exec_next_cases h with ⟨e, -, -, rfl⟩ | hc
  · exact .inl rfl
  · exact hc.stack_frame

/-! ### A store before a fetch -/

/-- A `WMEM` whose operands resolve and whose address lies in the heap stores the value. -/
theorem exec_wmem_of_val {s : State} {a b addr v : Word} (ha : val a s = .ok addr) (hb : val b s = .ok v)
    (hlt : addr.toNat < 32768) :
    exec (.wmem a b) s = .next { s.advance 3 with heap := s.heap.write addr.toNat v } := by
  have hw : memWrite addr v s.heap = .ok (s.heap.write addr.toNat v) := memWrite_eq_ok.mpr ⟨hlt, rfl⟩
  simp only [exec, execWmem, wmemEffect, ha, hb, hw, except_ok_bind, conclude_ok]

/-- An opcode word above 21 inside the heap is the decoder's fault (30_encoding.md R78). -/
theorem decodeAt_unknown {pc : Word} {m : Memory} (hpc : pc.toNat < 32768) (hop : 21 < (m.read pc.toNat).toNat) :
    decodeAt pc m = .error (.unknownOpcode (m.read pc.toNat)) := by
  rw [decodeAt, decodeWith_unknown (fetch_ok (k := 0) hpc m) hop]
  rfl

/-- An opcode word of format F0 inside the heap is the whole instruction. -/
theorem decodeAt_f0 {pc : Word} {m : Memory} {i : Instr} (hpc : pc.toNat < 32768)
    (hf : formatOf (m.read pc.toNat) = some (.f0 i)) : ∃ next, decodeAt pc m = .ok (i, next) := by
  have hr : ∀ k, 1 ≤ k → k ≤ (Format.f0 i).arity → memRead (pc + BitVec.ofNat 16 k) m = .ok 0 :=
    fun k h1 h0 => absurd (h1.trans h0) (Nat.not_succ_le_zero 0)
  rw [decodeAt, decodeWith_complete (fetch_ok (k := 0) hpc m) hf hr]
  exact ⟨_, rfl⟩

/-- Settles O55: after the store the counter stands at the cell written, which reads the word stored. -/
theorem storeIsSeenByTheNextFetch : Obligations.StoreIsSeenByTheNextFetch := by
  intro s t a b addr v hr ha hb hlt hpc h
  obtain ⟨hrun, hnext, hcell⟩ : t.runstate = .running ∧ t.pc = addr ∧ t.heap.read addr.toNat = v := by
    cases (exec_wmem_of_val ha hb hlt).symm.trans h
    exact ⟨hr, hpc, Memory.read_write_same ..⟩
  subst hnext hcell
  refine ⟨fun hv => ?_, fun hv => ?_, fun hv => ?_⟩
  · obtain ⟨next, hd⟩ := decodeAt_f0 (i := .noop) hlt (by rw [hv]; rfl)
    exact stepRunsTheDecodedInstruction t _ next hrun hd
  · obtain ⟨next, hd⟩ := decodeAt_f0 (i := .halt) hlt (by rw [hv]; rfl)
    exact stepRunsTheDecodedInstruction t _ next hrun hd
  · exact stepTakesTheDecodeFault t _ hrun (decodeAt_unknown hlt hv)

/-! ### The Loader's words -/

/-- An image of an odd number of bytes is refused (20_memory.md R52). -/
theorem imageWords_of_odd {bytes : List Byte} (h : bytes.length % 2 = 1) : imageWords bytes = none := by
  induction bytes using imageWords.induct with
  | case1 => cases h
  | case2 b => rfl
  | case3 lo hi rest ih =>
    have hrest : rest.length % 2 = 1 := by simpa [Nat.add_assoc] using h
    simp [imageWords, ih hrest]

/-- An image of an even number of bytes is a list of half as many words. -/
theorem imageWords_of_even {bytes : List Byte} (h : bytes.length % 2 = 0) :
    ∃ ws, imageWords bytes = some ws ∧ 2 * ws.length = bytes.length := by
  induction bytes using imageWords.induct with
  | case1 => exact ⟨[], rfl, rfl⟩
  | case2 b => cases h
  | case3 lo hi rest ih =>
    obtain ⟨ws, hws, hlen⟩ := ih (by simpa [Nat.add_assoc] using h)
    exact ⟨(hi ++ lo) :: ws, by simp [imageWords, hws], by simp only [List.length_cons]; omega⟩

/-- Word `k` of an image is made of the bytes `2k` and `2k + 1`, the second above the first. -/
theorem imageWords_getElem? {bytes : List Byte} {ws : List Word} (h : imageWords bytes = some ws) {k : Nat}
    (hk : k < ws.length) :
    ∃ lo hi : Byte, bytes[2 * k]? = some lo ∧ bytes[2 * k + 1]? = some hi ∧ ws[k]? = some (hi ++ lo) := by
  induction bytes using imageWords.induct generalizing ws k with
  | case1 =>
    cases h
    cases hk
  | case2 b => cases h
  | case3 lo hi rest ih =>
    obtain ⟨ws', hws', rfl⟩ := Option.map_eq_some_iff.mp h
    cases k with
    | zero => exact ⟨lo, hi, rfl, rfl, rfl⟩
    | succ k => exact ih hws' (Nat.lt_of_succ_lt_succ hk)

/-- The number that two bytes make, the first one above the second. -/
theorem toNat_append_byte (hi lo : Byte) : (hi ++ lo : Word).toNat = lo.toNat + 256 * hi.toNat := by
  rw [BitVec.toNat_append, ← Nat.shiftLeft_add_eq_or_of_lt lo.isLt, Nat.shiftLeft_eq]
  omega

/-- Settles O60, from the laws of `imageWords`. -/
theorem imageWordsAreLittleEndian : Obligations.ImageWordsAreLittleEndian := by
  intro bytes
  refine ⟨imageWords_of_odd, fun h => ?_⟩
  obtain ⟨ws, hws, hlen⟩ := imageWords_of_even h
  refine ⟨ws, hws, hlen, fun k hk => ?_⟩
  obtain ⟨lo, hi, hlo, hhi, hw⟩ := imageWords_getElem? hws hk
  exact ⟨lo, hi, hi ++ lo, hlo, hhi, hw, toNat_append_byte hi lo⟩

end Sys2Proof.Machine

/-! The decoder against the encoder, on a list of words and on the heap (30_encoding.md R70 to R81). -/

namespace Sys2Proof

/-- The reader answers the words of the list at the positions from 0 up. -/
def Reads {ε : Type} (read : Nat → Except ε Word) (ws : List Word) : Prop :=
  ∀ (k : Nat) (w : Word), ws[k]? = some w → read k = .ok w

@[simp] theorem reads_nil {ε : Type} (read : Nat → Except ε Word) : Reads read [] := nofun

@[simp] theorem reads_cons {ε : Type} {read : Nat → Except ε Word} {w : Word} {ws : List Word} :
    Reads read (w :: ws) ↔ read 0 = .ok w ∧ Reads (fun k => read (k + 1)) ws := by
  refine ⟨fun h => ⟨h 0 w rfl, fun k => h (k + 1)⟩, fun ⟨h0, h⟩ k v hk => ?_⟩
  cases k with
  | zero =>
    cases hk
    exact h0
  | succ k => exact h k v hk

/-- Every instruction is built by the row of its opcode word from its own words. -/
theorem exists_format_build (i : Instr) :
    ∃ f, formatOf ((encode i).getD 0 0) = some f ∧ f.build (fun k => (encode i).getD k 0) = i := by
  cases i <;> exact ⟨_, rfl, rfl⟩

section
variable {ε : Type} {read : Nat → Except ε Word} {unknown : Word → ε} {i : Instr}

/-- An instruction whose words are read is decoded. -/
theorem decodeWith_of_reads (h : Reads read (encode i)) : decodeWith read unknown = .ok i := by
  obtain ⟨f, hf, hi⟩ := exists_format_build i
  have hlen : (encode i).length = f.arity + 1 := by
    rw [length_encode, ← (formatOf_encodes hf).length fun k => (encode i).getD k 0, hi]
  have hr : ∀ k, k ≤ f.arity → read k = .ok ((encode i).getD k 0) := fun k hk =>
    h k _ (by simp [List.getElem?_eq_getElem (show k < (encode i).length by omega)])
  rw [decodeWith_complete (hr 0 (Nat.zero_le _)) hf fun k _ hk => hr k hk, hi]

/-- The words of a decoded instruction were read. -/
theorem reads_of_decodeWith (h : decodeWith read unknown = .ok i) : Reads read (encode i) := by
  obtain ⟨op, h0, h⟩ := Machine.except_bind_eq_ok.mp h
  cases hf : formatOf op with
  | none => simp [hf] at h
  | some f =>
    have henc := formatOf_encodes hf
    cases f with
    | f0 mk =>
      simp only [hf, Except.ok.injEq] at h
      subst h
      simp [show encode mk = [op] from henc, h0]
    | f1 mk =>
      simp only [hf, Machine.except_bind_eq_ok, Except.ok.injEq] at h
      obtain ⟨a, ha, rfl⟩ := h
      simp [henc a, h0, ha]
    | f2 mk =>
      simp only [hf, Machine.except_bind_eq_ok, Except.ok.injEq] at h
      obtain ⟨a, ha, b, hb, rfl⟩ := h
      simp [henc a b, h0, ha, hb]
    | f3 mk =>
      simp only [hf, Machine.except_bind_eq_ok, Except.ok.injEq] at h
      obtain ⟨a, ha, b, hb, c, hc, rfl⟩ := h
      simp [henc a b c, h0, ha, hb, hc]

/-- The decode algorithm answers exactly the instruction whose words the reader answers. -/
theorem decodeWith_eq_ok : decodeWith read unknown = .ok i ↔ Reads read (encode i) :=
  ⟨reads_of_decodeWith, decodeWith_of_reads⟩

end

theorem wordAt_eq_ok {ws : List Word} {k : Nat} {w : Word} : wordAt ws k = .ok w ↔ ws[k]? = some w := by
  unfold wordAt
  split <;> simp_all

/-- A list of words answers the words of another one exactly when it begins with them. -/
theorem reads_wordAt {ws us : List Word} : Reads (wordAt ws) us ↔ us <+: ws := by
  simp only [Reads, wordAt_eq_ok, List.prefix_iff_getElem?]
  exact ⟨fun h k hk => h k _ (List.getElem?_eq_getElem hk), fun h k w hw => by
    obtain ⟨hk, rfl⟩ := List.getElem?_eq_some_iff.mp hw
    exact h k hk⟩

/-- Settles O2: a list decodes to the instruction whose words it begins with, and the rest is what follows them. -/
theorem decodeIffEncode : Obligations.DecodeIffEncode := by
  intro ws rest i
  simp only [decode, Machine.except_bind_eq_ok, decodeWith_eq_ok, reads_wordAt, Except.ok.injEq, Prod.mk.injEq,
    ← length_encode]
  constructor
  · rintro ⟨_, hpre, rfl, rfl⟩
    exact (List.prefix_iff_eq_append.mp hpre).symm
  · rintro rfl
    exact ⟨i, List.prefix_append .., rfl, List.drop_left⟩

/-- A list that begins with a word above 21 is refused by that word (30_encoding.md R78, R80). -/
theorem decode_unknown {op : Word} (hop : 21 < op.toNat) (rest : List Word) :
    decode (op :: rest) = .error (.unknownOpcode op) := by
  rw [decode, decodeWith_unknown rfl hop]
  rfl

/-- Settles O1: each list is the encoding of its instruction, and each refused word is above 21. -/
theorem writtenWordsDecode : Obligations.WrittenWordsDecode :=
  ⟨(decodeIffEncode ..).mpr rfl, (decodeIffEncode ..).mpr rfl, (decodeIffEncode ..).mpr rfl,
    (decodeIffEncode ..).mpr rfl, (decodeIffEncode ..).mpr rfl, decode_unknown (by decide) _,
    decode_unknown (by decide) _, decode_unknown (by decide) _⟩

end Sys2Proof

namespace Sys2Proof.Machine

/-- Settles O3: the decoder's cases give the words in the cells, and words in the cells are decoded. -/
theorem decodeAtReadsTheWords : Obligations.DecodeAtReadsTheWords := by
  intro pc next m i
  constructor
  · intro h
    rcases decodeAt_cases pc m with ⟨-, h'⟩ | ⟨-, -, h'⟩ | ⟨f, hpc, hf, ⟨-, h'⟩ | ⟨hfit, h'⟩⟩ <;>
      cases h'.symm.trans h
    have hwords := (formatOf_encodes hf).words (fun k => m.read (pc.toNat + k)) rfl
    rw [hwords, List.length_map, List.length_range]
    refine ⟨hfit, fun k hk => ?_, toNat_add_ofNat hfit⟩
    rw [List.getElem?_map, List.getElem?_range hk, Option.map_some]
  · rintro ⟨hfit, hcells, hnext⟩
    have hreads : Reads (fun k => memRead (pc + BitVec.ofNat 16 k) m) (encode i) := by
      intro k w hw
      obtain ⟨hk, -⟩ := List.getElem?_eq_some_iff.mp hw
      cases hw.symm.trans (hcells k hk)
      exact fetch_ok (by omega) m
    rw [length_encode] at hfit hnext
    have e : pc + BitVec.ofNat 16 (instrLength i) = next :=
      BitVec.eq_of_toNat_eq ((toNat_add_ofNat hfit).trans hnext.symm)
    rw [decodeAt, decodeWith_of_reads hreads, except_ok_bind, e]

/-- The operand counts of the opcode map are the arities of the table's rows. -/
theorem operandCounts_eq_map_arity : operandCounts = opcodeTable.map Format.arity := rfl

/-- The operand count of an opcode word is the arity of the row it selects. -/
theorem operandCounts_getElem? (op : Word) : operandCounts[op.toNat]? = (formatOf op).map Format.arity := by
  rw [operandCounts_eq_map_arity, List.getElem?_map, formatOf]

/-- Settles O4: the clauses are the cases of `decodeAt_cases`, which exclude each other. -/
theorem decoderFaultsInOrder : Obligations.DecoderFaultsInOrder := by
  intro pc m
  refine ⟨fun hpc => ?_, decodeAt_unknown, fun n hpc hn => ?_⟩
  · rcases decodeAt_cases pc m with ⟨-, h⟩ | ⟨hlt, -⟩ | ⟨f, hlt, -⟩
    · exact h
    all_goals omega
  · rw [operandCounts_getElem?] at hn
    rcases decodeAt_cases pc m with ⟨hge, -⟩ | ⟨-, hop, -⟩ | ⟨f, -, hf, h⟩
    · omega
    · rw [formatOf_eq_none.mpr hop] at hn
      cases hn
    · rw [hf] at hn
      cases hn
      rcases h with ⟨hpast, h⟩ | ⟨hfit, h⟩
      · exact ⟨fun _ => h, fun hle => by omega⟩
      · refine ⟨fun hgt => by omega, fun _ => ⟨_, _, h, (formatOf_encodes hf).length _, ?_⟩⟩
        rw [toNat_add_ofNat hfit]
        omega

end Sys2Proof.Machine

/-! Operand words, and the faults of the operands an instruction resolves (30_encoding.md R72 to R80). -/

namespace Sys2Proof.Machine

/-! ### The classes of operand word -/

theorem kind_eq_literal {w : Word} : kind w = .literal ↔ w.toNat ≤ 32767 := by
  unfold kind
  split_ifs <;> simp_all

theorem kind_eq_register {w : Word} : kind w = .register ↔ 32768 ≤ w.toNat ∧ w.toNat ≤ 32775 := by
  unfold kind
  split_ifs <;> simp <;> omega

theorem kind_eq_invalid {w : Word} : kind w = .invalid ↔ 32776 ≤ w.toNat := by
  unfold kind
  split_ifs <;> simp <;> omega

/-- Settles O8, from the three ranges. -/
theorem kindByRange : Obligations.KindByRange := fun _ => ⟨kind_eq_literal, kind_eq_register, kind_eq_invalid⟩

/-- Settles O9: each clause is what `val` does on one range. -/
theorem valByKind : Obligations.ValByKind := fun _ s =>
  ⟨fun h => val_literal (kind_eq_literal.mp h) s, fun _ h => val_register h s,
    fun h => val_invalid (kind_eq_invalid.mp h) s⟩

/-- Settles O10: each clause is what `dst` does on one range. -/
theorem dstByKind : Obligations.DstByKind := fun _ =>
  ⟨fun h h' => dst_eq_ok.mpr ⟨by omega, by omega⟩, dst_illegal⟩

/-- Bits 14:3 of a word, read as the number they count. -/
theorem extractLsb'_3_12_eq_zero {w : Word} : w.extractLsb' 3 12 = 0 ↔ w.toNat / 8 % 4096 = 0 := by
  rw [← BitVec.toNat_inj, BitVec.extractLsb'_toNat, Nat.shiftRight_eq_div_pow]
  rfl

/-- Settles O11: bit 15 is the bound of the literals, and bits 14:3 tell the first eight words above it. -/
theorem operandBitLayout : Obligations.OperandBitLayout := by
  intro w
  have hw := w.isLt
  simp only [getLsbD_15_eq_decide, decide_eq_false_iff_not, decide_eq_true_iff, ne_eq, extractLsb'_3_12_eq_zero,
    kind_eq_literal, kind_eq_register, kind_eq_invalid]
  refine ⟨by omega, by omega, by omega, fun h => ?_⟩
  have hindex : (w.extractLsb' 0 3).toNat = w.toNat % 8 := BitVec.extractLsb'_toNat ..
  exact dst_eq_ok.mpr ⟨by omega, by omega⟩

/-! ### Operand faults -/

section
variable {s : State} {a b c w : Word} {e : Trap}

theorem val_of_kind_invalid (h : kind w = .invalid) (s : State) : val w s = .error (.invalidOperand w) :=
  val_invalid (kind_eq_invalid.mp h) s

/-- A word that is not invalid has a value. -/
theorem exists_val_of_kind_ne_invalid (h : kind w ≠ .invalid) (s : State) : ∃ v, val w s = .ok v := by
  rcases word_cases w with hw | ⟨i, hw⟩ | hw
  · exact ⟨w, val_literal hw s⟩
  · exact ⟨s.reg i, val_register hw s⟩
  · exact absurd (kind_of_gt hw) h

/-- A register word names a destination. -/
theorem exists_dst_of_kind_register (h : kind w = .register) : ∃ n, dst w = .ok n := by
  obtain ⟨hlo, hhi⟩ := kind_eq_register.mp h
  exact ⟨w.toNat - 32768, dst_eq_ok.mpr ⟨by omega, by omega⟩⟩

/-- A step whose effect raises takes the fault. -/
theorem conclude_of_error {r : Except Trap State} (h : r = .error e) : conclude s r = .next (takeFault e s) := by
  rw [h, conclude_error]

/-- The instructions that resolve their destination first fault by it, whatever else they would do. -/
theorem exec_of_dst_error {i : Instr} (hi : destWord i = some a) (h : dst a = .error e) :
    exec i s = .next (takeFault e s) := by
  cases i with
  | set | not | rmem =>
    cases hi
    exact conclude_of_error (unaryEffect_eq_error.mpr (.inl h))
  | eq | gt | add | mult | mod | and | or =>
    cases hi
    exact conclude_of_error (binaryEffect_eq_error.mpr (.inl h))
  | pop =>
    cases hi
    exact conclude_of_error (except_bind_eq_error.mpr (.inl h))
  | inb =>
    cases hi
    simp only [exec, execInb, h, conclude_error]
  | _ => cases hi

/-- A three-word instruction faults by its value operand once its destination is legal. -/
theorem unary_of_val_error {f : Word → Except Trap Word} (ha : kind a = .register) (h : val b s = .error e) :
    conclude s (unaryEffect f a b s) = .next (takeFault e s) := by
  obtain ⟨n, hn⟩ := exists_dst_of_kind_register ha
  exact conclude_of_error (unaryEffect_eq_error.mpr (.inr (.inl ⟨n, hn, h⟩)))

/-- A four-word instruction faults by the first of its value operands that faults, once its destination is legal. -/
theorem binary_of_val_error {f : Word → Word → Except Trap Word} (ha : kind a = .register)
    (h : val b s = .error e ∨ ∃ vb, val b s = .ok vb ∧ val c s = .error e) :
    conclude s (binaryEffect f a b c s) = .next (takeFault e s) := by
  obtain ⟨n, hn⟩ := exists_dst_of_kind_register ha
  refine conclude_of_error (binaryEffect_eq_error.mpr (.inr ?_))
  rcases h with h | ⟨vb, hb, h⟩
  · exact .inl ⟨n, hn, h⟩
  · exact .inr (.inl ⟨n, vb, hn, hb, h⟩)

/-- A four-word instruction with a legal destination faults by the first of its value operands that faults. -/
theorem exec_binary_of_val_error {i : Instr}
    (hi : i ∈ [Instr.eq a b c, .gt a b c, .add a b c, .mult a b c, .mod a b c, .and a b c, .or a b c])
    (ha : kind a = .register) (h : val b s = .error e ∨ ∃ vb, val b s = .ok vb ∧ val c s = .error e) :
    exec i s = .next (takeFault e s) := by
  fin_cases hi <;> exact binary_of_val_error ha h

/-- A three-word instruction with a legal destination faults by its value operand. -/
theorem exec_unary_of_val_error {i : Instr} (hi : i ∈ [Instr.set a b, .not a b, .rmem a b])
    (ha : kind a = .register) (h : val b s = .error e) : exec i s = .next (takeFault e s) := by
  fin_cases hi <;> exact unary_of_val_error ha h

/-- An instruction that resolves a value first faults by it. -/
theorem exec_of_first_val_error {i : Instr}
    (hi : i ∈ [Instr.push a, .jmp a, .call a, .out a, .jt a b, .jf a b, .wmem a b]) (h : val a s = .error e) :
    exec i s = .next (takeFault e s) := by
  fin_cases hi <;> exact conclude_of_error (except_bind_eq_error.mpr (.inl h))

/-- `WMEM` faults by its second operand once the first has a value, before it tests the address. -/
theorem exec_wmem_of_second_val_error {va : Word} (ha : val a s = .ok va) (hb : val b s = .error e) :
    exec (.wmem a b) s = .next (takeFault e s) :=
  conclude_of_error (except_bind_eq_error.mpr (.inr ⟨va, ha, except_bind_eq_error.mpr (.inl hb)⟩))

/-- A conditional jump that is taken faults by its target operand. -/
theorem condJump_of_target_error {eager : Bool} {test : Word → Bool} {va : Word} (ha : val a s = .ok va)
    (ht : test va = true) (hb : val b s = .error e) :
    conclude s (condJumpEffect eager test a b s) = .next (takeFault e s) := by
  refine conclude_of_error ?_
  simp only [condJumpEffect, ha, ht, hb, except_ok_bind, except_error_bind, if_true]

end

theorem isNonzero_iff {v : Word} : isNonzero v = true ↔ v.toNat ≠ 0 := by
  rw [isNonzero, bne_iff_ne, ne_eq, ← BitVec.toNat_inj]
  rfl

theorem isZero_iff {v : Word} : isZero v = true ↔ v.toNat = 0 := by
  rw [isZero, beq_iff_eq, ← BitVec.toNat_inj]
  rfl

/-- Settles O38: an illegal destination word is an error of `dst`. -/
theorem illegalDestinationFaultsFirst : Obligations.IllegalDestinationFaultsFirst := fun _ _ _ hi ha =>
  exec_of_dst_error hi (dst_illegal ha)

/-- Settles O39: an invalid word is an error of `val`, and each clause says where it is the first one resolved. -/
theorem invalidValueOperandFaults : Obligations.InvalidValueOperandFaults := by
  refine ⟨fun s a b c i hi ha => ⟨fun hb => ?_, fun hb hc => ?_⟩, fun s a b i hi ha hb => ?_,
    fun s a b i hi ha => ?_, fun s a b ha hb => ?_, fun s a b va ha hb => ⟨fun hva => ?_, fun hva => ?_⟩⟩
  · exact exec_binary_of_val_error hi ha (.inl (val_of_kind_invalid hb s))
  · obtain ⟨vb, hvb⟩ := exists_val_of_kind_ne_invalid hb s
    exact exec_binary_of_val_error hi ha (.inr ⟨vb, hvb, val_of_kind_invalid hc s⟩)
  · exact exec_unary_of_val_error hi ha (val_of_kind_invalid hb s)
  · exact exec_of_first_val_error hi (val_of_kind_invalid ha s)
  · obtain ⟨va, hva⟩ := exists_val_of_kind_ne_invalid ha s
    exact exec_wmem_of_second_val_error hva (val_of_kind_invalid hb s)
  · exact condJump_of_target_error ha (isNonzero_iff.mpr hva) (val_of_kind_invalid hb s)
  · exact condJump_of_target_error ha (isZero_iff.mpr hva) (val_of_kind_invalid hb s)

end Sys2Proof.Machine

/-! `HALT` and `NOOP` (40_halt_noop.md R100, R101). -/

namespace Sys2Proof.Machine

/-- `HALT` advances past its word and ends the run. -/
theorem exec_halt (s : State) : exec .halt s = .next (s.advance 1).halt := rfl

/-- `NOOP` only advances past its word. -/
theorem exec_noop (s : State) : exec .noop s = .next (s.advance 1) := rfl

/-- Settles O16, from the equations of the two meanings. -/
theorem haltAndNoopComplete : Obligations.HaltAndNoopComplete := fun s => ⟨exec_halt s, exec_noop s⟩

/-- A zero word in the heap decodes to `HALT`, in cell 32767 too, since it has no operand to fetch. -/
theorem decodeAt_halt {pc : Word} {m : Memory} (hpc : pc.toNat < 32768) (h0 : m.read pc.toNat = 0) :
    ∃ next, decodeAt pc m = .ok (.halt, next) :=
  decodeAt_f0 hpc (by rw [h0]; rfl)

/-- Settles O17: a zero word is decoded to `HALT` and run, the state it leaves is `Halted`, and from 32768 on the opcode
fetch is the decoder's fault. -/
theorem haltStep : Obligations.HaltStep := by
  refine ⟨rfl, fun s hr => ⟨fun hpc h0 => ⟨?_, ?_⟩, fun hpc => ?_⟩⟩
  · obtain ⟨next, hd⟩ := decodeAt_halt hpc h0
    exact (stepRunsTheDecodedInstruction s .halt next hr hd).trans (haltAndNoopComplete s).1
  · obtain ⟨-, hhalted, -⟩ := noStepOutsideRunning { s with pc := s.pc + 1, runstate := .halted }
    exact hhalted rfl
  · obtain ⟨hfetch, -, -⟩ := decoderFaultsInOrder s.pc s.heap
    exact stepTakesTheDecodeFault s _ hr (hfetch hpc)

end Sys2Proof.Machine

/-! `SET` (41_set.md R105), and the shape it shares with the other instructions of three words. -/

namespace Sys2Proof.Machine

/-- A three-word instruction with a legal destination and a value completes with its result in the register named. -/
theorem conclude_unaryEffect_of_ok {f : Word → Except Trap Word} {a b vb v : Word} {i : Fin 8} {s : State}
    (ha : dst a = .ok i.val) (hb : val b s = .ok vb) (hv : f vb = .ok v) :
    conclude s (unaryEffect f a b s) = .next ((s.advance 3).setReg i v) := by
  rw [unaryEffect_eq_ok.mpr ⟨i, vb, v, ha, hb, hv, rfl⟩, conclude_ok]

/-- Settles O18: the function of `SET` is the identity on words. -/
theorem setCopiesTheValue : Obligations.SetCopiesTheValue := fun _ _ _ _ _ ha hb =>
  conclude_unaryEffect_of_ok ha hb rfl

end Sys2Proof.Machine

/-! `PUSH` and `POP` (42_stack.md R110, R111), and the stack controller under them (R112). -/

namespace Sys2Proof.Machine

/-- A `PUSH` whose operand has a value puts it on top. -/
theorem exec_push_of_val {s : State} {a v : Word} (ha : val a s = .ok v) :
    exec (.push a) s = .next (pushWord v (s.advance 2)) := by
  simp only [exec, execPush, pushEffect, ha, except_ok_bind, conclude_ok]

/-- A `POP` into a register takes the top of a stack that has one. -/
theorem exec_pop_of_cons {s : State} {a v : Word} {rest : List Word} {i : Fin 8} (ha : dst a = .ok i.val)
    (hst : s.stack = v :: rest) :
    exec (.pop a) s = .next (({ s.advance 2 with stack := rest } : State).setReg i v) := by
  simp only [exec, execPop, popEffect, ha, popWord_cons hst, except_ok_bind, writeRegister_fin, conclude_ok]
  rfl

/-- A `POP` into a register faults on an empty stack. -/
theorem exec_pop_of_nil {s : State} {a : Word} {i : Fin 8} (ha : dst a = .ok i.val) (hst : s.stack = []) :
    exec (.pop a) s = .next (takeFault .stackUnderflow s) :=
  conclude_of_error (except_bind_eq_error.mpr (.inr ⟨i.val, ha, except_bind_eq_error.mpr (.inl (popWord_nil hst))⟩))

/-- A `RET` jumps to the top of a stack that has one. -/
theorem exec_ret_of_cons {s : State} {v : Word} {rest : List Word} (hst : s.stack = v :: rest) :
    exec .ret s = .next (({ s with stack := rest } : State).jumpTo v) := by
  simp only [exec, execRet, popWord_cons hst]

/-- Settles O19, from the equations of the two meanings. -/
theorem pushAndPopOutcomes : Obligations.PushAndPopOutcomes :=
  ⟨fun _ _ _ ha => exec_push_of_val ha, fun _ _ _ _ _ ha hst => exec_pop_of_cons ha hst,
    fun _ _ _ ha hst => exec_pop_of_nil ha hst⟩

/-- Words pushed in order lie on the stack in reverse, on what was there. -/
theorem pushAll_eq (vs : List Word) (s : State) : pushAll vs s = { s with stack := vs.reverse ++ s.stack } := by
  induction vs generalizing s with
  | nil => rfl
  | cons v vs ih => simp [pushAll, ih, pushWord]

/-- Popping as many words as lie on top answers them from the top down and leaves the stack below them. -/
theorem popAll_of_stack {us rest : List Word} {s : State} (hst : s.stack = us ++ rest) :
    popAll us.length s = .ok (us, { s with stack := rest }) := by
  induction us generalizing s with
  | nil =>
    cases hst
    rfl
  | cons u us ih =>
    have hpop : popWord s = .ok (u, { s with stack := us ++ rest }) := popWord_cons hst
    have hrest := ih (s := { s with stack := us ++ rest }) rfl
    simp only [List.length_cons, popAll, hpop, hrest, except_ok_bind]

/-- The last-in first-out law of R112. -/
theorem popAll_pushAll (vs : List Word) (s : State) : popAll vs.length (pushAll vs s) = .ok (vs.reverse, s) := by
  rw [pushAll_eq, ← List.length_reverse]
  exact popAll_of_stack rfl

/-- A `CALL` that does not fault leaves its return address on top of the stack. -/
theorem stack_of_call {s t : State} {a : Word} (h : exec (.call a) s = .next t) (hr : t.runstate ≠ .faulted) :
    t.stack = (s.pc + 2) :: s.stack := by
  cases completes_of_not_faulted h hr with
  | result hw => cases hw
  | call => rfl

/-- Settles O15: the controller's operations by their own lemmas, and the sharing because `CALL` and `PUSH` leave a word
on the one stack that `POP` and `RET` take from. -/
theorem stackController : Obligations.StackController := by
  refine ⟨fun _ _ => rfl, fun _ => popWord_nil, fun _ _ _ => popWord_cons, popAll_pushAll,
    fun s t a b i hb hcall hr => exec_pop_of_cons hb (stack_of_call hcall hr), fun s t a v ha hpush => ?_⟩
  rw [exec_push_of_val ha] at hpush
  cases hpush
  exact exec_ret_of_cons (s := pushWord v (s.advance 2)) rfl

end Sys2Proof.Machine

/-! `EQ` and `GT` (43_compare.md R115, R116), and the shape they share with the other instructions of four words. -/

namespace Sys2Proof.Machine

/-- A four-word instruction with a legal destination and two values completes with its result in the register named. -/
theorem conclude_binaryEffect_of_ok {f : Word → Word → Except Trap Word} {a b c vb vc v : Word} {i : Fin 8} {s : State}
    (ha : dst a = .ok i.val) (hb : val b s = .ok vb) (hc : val c s = .ok vc) (hv : f vb vc = .ok v) :
    conclude s (binaryEffect f a b c s) = .next ((s.advance 4).setReg i v) := by
  rw [binaryEffect_eq_ok.mpr ⟨i, vb, vc, v, ha, hb, hc, hv, rfl⟩, conclude_ok]

/-- Equality of the words is equality of the unreduced unsigned values. -/
theorem compareEq_eq_ite (vb vc : Word) : compareEq vb vc = if vb.toNat = vc.toNat then 1 else 0 := by
  simp only [compareEq, truthWord, beq_iff_eq, BitVec.toNat_inj]

/-- The order is that of the unreduced unsigned values. -/
theorem compareGt_eq_ite (vb vc : Word) : compareGt vb vc = if vb.toNat > vc.toNat then 1 else 0 := by
  simp only [compareGt, truthWord, decide_eq_true_eq, gt_iff_lt]

/-- Settles O20: each instruction writes its comparison's word, which the two lemmas above read as numbers. -/
theorem compareWritesOneOrZero : Obligations.CompareWritesOneOrZero := by
  intro s a b c vb vc i ha hb hc
  rw [← compareEq_eq_ite, ← compareGt_eq_ite]
  exact ⟨conclude_binaryEffect_of_ok ha hb hc rfl, conclude_binaryEffect_of_ok ha hb hc rfl⟩

end Sys2Proof.Machine

/-! `JMP`, `JT` and `JF` (44_jump.md R120 to R122), with both readings of `JT_EAGER_TARGET` (00_scope.md R5). -/

namespace Sys2Proof.Machine

theorem isNonzero_eq_false_iff {v : Word} : isNonzero v = false ↔ v.toNat = 0 := by
  rw [Bool.eq_false_iff, ne_eq, isNonzero_iff, not_not]

theorem isZero_eq_false_iff {v : Word} : isZero v = false ↔ v.toNat ≠ 0 := by
  rw [Bool.eq_false_iff, ne_eq, isZero_iff]

section
variable {eager : Bool} {test : Word → Bool} {s : State} {a b va t : Word} {e : Trap}

/-- A jump to an operand that has a value assigns it to the counter. -/
theorem jumpEffect_of_val (ha : val a s = .ok t) : jumpEffect a s = .ok (s.jumpTo t) := by
  rw [jumpEffect, ha, except_ok_bind]

/-- A jump to an operand without a value raises what the operand raises. -/
theorem jumpEffect_of_val_error (ha : val a s = .error e) : jumpEffect a s = .error e := by
  rw [jumpEffect, ha, except_error_bind]

/-- Taken, a conditional jump is a jump to its target, in either reading of the parameter. -/
theorem condJumpEffect_of_taken (ha : val a s = .ok va) (ht : test va = true) :
    condJumpEffect eager test a b s = jumpEffect b s := by
  rw [condJumpEffect, ha, except_ok_bind, if_pos ht, jumpEffect]

/-- Untaken, the default reading only advances past the words. -/
theorem condJumpEffect_lazy_of_untaken (ha : val a s = .ok va) (ht : test va = false) :
    condJumpEffect false test a b s = .ok (s.advance 3) := by
  simp only [condJumpEffect, ha, except_ok_bind, ht, Bool.false_eq_true, if_false]

/-- Untaken, the eager reading advances past the words too once the target has a value. -/
theorem condJumpEffect_eager_of_untaken (ha : val a s = .ok va) (ht : test va = false) (hb : val b s = .ok t) :
    condJumpEffect true test a b s = .ok (s.advance 3) := by
  simp only [condJumpEffect, ha, hb, except_ok_bind, ht, Bool.false_eq_true, if_false, if_true]

/-- Untaken, the eager reading raises what its target raises. -/
theorem condJumpEffect_eager_of_untaken_error (ha : val a s = .ok va) (ht : test va = false) (hb : val b s = .error e) :
    condJumpEffect true test a b s = .error e := by
  simp only [condJumpEffect, ha, hb, except_ok_bind, except_error_bind, ht, Bool.false_eq_true, if_false, if_true]

/-- A taken conditional jump whose target has a value completes there. -/
theorem conclude_condJumpEffect_of_taken (ha : val a s = .ok va) (ht : test va = true) (hb : val b s = .ok t) :
    conclude s (condJumpEffect eager test a b s) = .next (s.jumpTo t) := by
  rw [condJumpEffect_of_taken ha ht, jumpEffect_of_val hb, conclude_ok]

/-- An untaken conditional jump completes past its words, at the parameter's default. -/
theorem conclude_condJumpEffect_of_untaken (ha : val a s = .ok va) (ht : test va = false) :
    conclude s (condJumpEffect Config.jtEagerTarget test a b s) = .next (s.advance 3) := by
  rw [Config.jtEagerTarget, condJumpEffect_lazy_of_untaken ha ht, conclude_ok]

/-- `JMP` to an operand that has a value completes there. -/
theorem exec_jmp_of_val (ha : val a s = .ok t) : exec (.jmp a) s = .next (s.jumpTo t) := by
  rw [exec, execJmp, jumpEffect_of_val ha, conclude_ok]

end

/-- Settles O21, by the equation of `JMP`. -/
theorem jmpAssignsTheCounter : Obligations.JmpAssignsTheCounter := fun _ _ _ ha => exec_jmp_of_val ha

/-- Settles O22: `JT` is taken where its test holds, which is on a nonzero value, and `JF` where its own does. -/
theorem conditionalJumpOutcomes : Obligations.ConditionalJumpOutcomes := fun _ _ _ _ ha =>
  ⟨fun _ hva hb => conclude_condJumpEffect_of_taken ha (isNonzero_iff.mpr hva) hb,
    fun hva => conclude_condJumpEffect_of_untaken ha (isNonzero_eq_false_iff.mpr hva),
    fun _ hva hb => conclude_condJumpEffect_of_taken ha (isZero_iff.mpr hva) hb,
    fun hva => conclude_condJumpEffect_of_untaken ha (isZero_eq_false_iff.mpr hva)⟩

/-- Settles O23: taken, both readings are the jump to the target; untaken, only the eager one depends on whether the
target has a value. -/
theorem eagerTargetDiffersOnlyUntaken : Obligations.EagerTargetDiffersOnlyUntaken := by
  intro test s a b va ha
  refine ⟨fun hb => ?_, fun hb ht => ?_, fun hb ht => ?_⟩
  · obtain ⟨t, hvb⟩ := exists_val_of_kind_ne_invalid hb s
    cases ht : test va with
    | true => rw [condJumpEffect_of_taken ha ht, condJumpEffect_of_taken ha ht]
    | false => rw [condJumpEffect_eager_of_untaken ha ht hvb, condJumpEffect_lazy_of_untaken ha ht]
  · have hjump := jumpEffect_of_val_error (val_of_kind_invalid hb s)
    exact ⟨(condJumpEffect_of_taken ha ht).trans hjump, (condJumpEffect_of_taken ha ht).trans hjump⟩
  · exact ⟨condJumpEffect_eager_of_untaken_error ha ht (val_of_kind_invalid hb s), condJumpEffect_lazy_of_untaken ha ht⟩

end Sys2Proof.Machine

/-! `ADD`, `MULT` and `MOD` (45_arith.md R125 to R127), and the 15-bit datapath of R128. -/

namespace Sys2Proof.Machine

/-- Settles O24: each function always answers, with the exact result reduced. -/
theorem addAndMultWriteTheExactResultModulo : Obligations.AddAndMultWriteTheExactResultModulo :=
  fun _ _ _ _ _ _ _ ha hb hc =>
    ⟨conclude_binaryEffect_of_ok ha hb hc rfl, conclude_binaryEffect_of_ok ha hb hc rfl⟩

/-- A four-word instruction with a legal destination and two values faults by its function. -/
theorem conclude_binaryEffect_of_error {f : Word → Word → Except Trap Word} {a b c vb vc : Word} {i : Fin 8}
    {s : State} {e : Trap} (ha : dst a = .ok i.val) (hb : val b s = .ok vb) (hc : val c s = .ok vc)
    (he : f vb vc = .error e) : conclude s (binaryEffect f a b c s) = .next (takeFault e s) :=
  conclude_of_error (binaryEffect_eq_error.mpr (.inr (.inr (.inr ⟨i.val, vb, vc, ha, hb, hc, he⟩))))

/-- A divisor other than 0 gives the reduced remainder. -/
theorem aluMod_of_toNat_ne_zero {vc : Word} (vb : Word) (h : vc.toNat ≠ 0) :
    aluMod vb vc = .ok (reduce (vb.toNat % vc.toNat)) :=
  if_neg fun hvc => h (congrArg BitVec.toNat hvc)

/-- A divisor of 0 is an error for every dividend, 0 among them. -/
theorem aluMod_of_toNat_eq_zero {vc : Word} (vb : Word) (h : vc.toNat = 0) : aluMod vb vc = .error .divisionByZero :=
  if_pos (BitVec.eq_of_toNat_eq h)

/-- Settles O25: `aluMod` answers or raises by its divisor alone. -/
theorem modOutcomes : Obligations.ModOutcomes := fun _ _ _ _ vb _ _ ha hb hc =>
  ⟨fun hvc => conclude_binaryEffect_of_ok ha hb hc (aluMod_of_toNat_ne_zero vb hvc),
    fun hvc => conclude_binaryEffect_of_error ha hb hc (aluMod_of_toNat_eq_zero vb hvc)⟩

/-- Reducing modulo 32768 is truncating to 15 bits. -/
theorem reduce_eq_setWidth_ofNat (n : Nat) : reduce n = (BitVec.ofNat 15 n).setWidth 16 := by
  apply BitVec.eq_of_toNat_eq
  simp only [reduce, BitVec.toNat_setWidth, BitVec.toNat_ofNat, Nat.reducePow]

/-- Bits 14:0 of a word are its value truncated to 15 bits. -/
theorem extractLsb'_zero_fifteen (v : Word) : v.extractLsb' 0 15 = BitVec.ofNat 15 v.toNat := rfl

/-- Settles O26: truncation to 15 bits is a ring homomorphism, so it may be done before the sum and the product. -/
theorem fifteenBitDatapathSuffices : Obligations.FifteenBitDatapathSuffices := by
  intro vb vc
  rw [aluAdd, aluMult, reduce_eq_setWidth_ofNat, reduce_eq_setWidth_ofNat, BitVec.ofNat_add, BitVec.ofNat_mul,
    extractLsb'_zero_fifteen, extractLsb'_zero_fifteen]
  exact ⟨rfl, rfl⟩

end Sys2Proof.Machine

/-! `AND`, `OR` and `NOT` (46_logic.md R130 to R132), and the mask of R133 as a remainder and bit by bit. -/

namespace Sys2Proof.Machine

/-- The mask of R133 as a number: the remainder modulo 32768. -/
theorem toNat_mask15 (v : Word) : (mask15 v).toNat = v.toNat % 32768 := by
  simpa [mask15] using Nat.and_two_pow_sub_one_eq_mod v.toNat 15

/-- The mask of R133 by bits: it keeps bits 14:0 and clears the rest. -/
theorem getLsbD_mask15 (v : Word) (k : Nat) : (mask15 v).getLsbD k = (decide (k < 15) && v.getLsbD k) := by
  simpa only [← BitVec.testBit_toNat, toNat_mask15] using Nat.testBit_mod_two_pow v.toNat 15 k

theorem getLsbD_mask15_fifteen (v : Word) : (mask15 v).getLsbD 15 = false := getLsbD_mask15 v 15

theorem getLsbD_mask15_of_lt (v : Word) {k : Nat} (hk : k < 15) : (mask15 v).getLsbD k = v.getLsbD k := by
  rw [getLsbD_mask15, decide_eq_true hk, Bool.true_and]

theorem getLsbD_aluAnd (vb vc : Word) {k : Nat} (hk : k < 15) :
    (aluAnd vb vc).getLsbD k = (vb.getLsbD k && vc.getLsbD k) := by
  rw [aluAnd, getLsbD_mask15_of_lt _ hk, BitVec.getLsbD_and]

theorem getLsbD_aluOr (vb vc : Word) {k : Nat} (hk : k < 15) :
    (aluOr vb vc).getLsbD k = (vb.getLsbD k || vc.getLsbD k) := by
  rw [aluOr, getLsbD_mask15_of_lt _ hk, BitVec.getLsbD_or]

theorem getLsbD_aluNot (vb : Word) {k : Nat} (hk : k < 15) : (aluNot vb).getLsbD k = !vb.getLsbD k := by
  have hk16 : k < 16 := by omega
  rw [aluNot, getLsbD_mask15_of_lt _ hk, BitVec.getLsbD_not, decide_eq_true hk16, Bool.true_and]

/-- Settles O27: each instruction writes its function's word, and the mask of that word keeps exactly bits 14:0. -/
theorem logicIsBitwiseMaskedTo15Bits : Obligations.LogicIsBitwiseMaskedTo15Bits := by
  intro s a b c vb vc i ha hb hc
  refine ⟨aluAnd vb vc, aluOr vb vc, aluNot vb, ?execAnd, ?execOr, ?execNot, ?bit15And, ?bit15Or, ?bit15Not, ?bits⟩
  case execAnd => exact conclude_binaryEffect_of_ok ha hb hc rfl
  case execOr => exact conclude_binaryEffect_of_ok ha hb hc rfl
  case execNot => exact conclude_unaryEffect_of_ok ha hb rfl
  case bit15And => exact getLsbD_mask15_fifteen _
  case bit15Or => exact getLsbD_mask15_fifteen _
  case bit15Not => exact getLsbD_mask15_fifteen _
  case bits => exact fun k hk => ⟨getLsbD_aluAnd vb vc hk, getLsbD_aluOr vb vc hk, getLsbD_aluNot vb hk⟩

/-- `NOT` as a number: the complement to 65535, masked, is the complement of the low 15 bits to 32767. -/
theorem toNat_aluNot (v : Word) : (aluNot v).toNat = 32767 - v.toNat % 32768 := by
  have hnot : (~~~v).toNat = 65535 - v.toNat := BitVec.toNat_not
  rw [aluNot, toNat_mask15, hnot]
  omega

/-- `NOT` twice keeps bits 14:0 and clears bit 15. -/
theorem aluNot_aluNot (v : Word) : aluNot (aluNot v) = mask15 v := by
  apply BitVec.eq_of_toNat_eq
  rw [toNat_aluNot, toNat_aluNot, toNat_mask15]
  omega

/-- A value up to 32767 is its own masked word. -/
theorem mask15_of_le {v : Word} (hv : v.toNat ≤ 32767) : mask15 v = v := by
  apply BitVec.eq_of_toNat_eq
  rw [toNat_mask15, Nat.mod_eq_of_lt (Nat.lt_succ_of_le hv)]

/-- Settles O28: `NOT` twice is the mask, which changes no value up to 32767. -/
theorem notIsComplementTo32767 : Obligations.NotIsComplementTo32767 :=
  fun v => ⟨toNat_aluNot v, fun hv => (aluNot_aluNot v).trans (mask15_of_le hv)⟩

end Sys2Proof.Machine

/-! `RMEM` and `WMEM` (47_heap.md R135, R136). -/

namespace Sys2Proof.Machine

/-- A three-word instruction with a legal destination and a value faults by its function. -/
theorem conclude_unaryEffect_of_error {f : Word → Except Trap Word} {a b vb : Word} {i : Fin 8} {s : State} {e : Trap}
    (ha : dst a = .ok i.val) (hb : val b s = .ok vb) (he : f vb = .error e) :
    conclude s (unaryEffect f a b s) = .next (takeFault e s) :=
  conclude_of_error (unaryEffect_eq_error.mpr (.inr (.inr ⟨i.val, vb, ha, hb, he⟩)))

/-- A `WMEM` whose operands have values faults by the heap's bound. -/
theorem exec_wmem_of_memWrite_error {s : State} {a b addr v : Word} {e : Trap} (ha : val a s = .ok addr)
    (hb : val b s = .ok v) (he : memWrite addr v s.heap = .error e) :
    exec (.wmem a b) s = .next (takeFault e s) := by
  refine conclude_of_error ?_
  simp only [wmemEffect, ha, hb, he, except_ok_bind, except_error_bind]

/-- Settles O29: the function of `RMEM` is `memRead`, which answers or raises by the address alone. -/
theorem rmemOutcomes : Obligations.RmemOutcomes := by
  intro s a b addr i ha hb
  obtain ⟨hpast, hcell⟩ := memReadChecksTheBound addr s.heap
  exact ⟨fun hlt => conclude_unaryEffect_of_ok ha hb (hcell hlt),
    fun hle => conclude_unaryEffect_of_error ha hb (hpast hle)⟩

/-- Settles O30: the new heap is the old one with the cell written, and past the bound `memWrite` raises. -/
theorem wmemOutcomes : Obligations.WmemOutcomes := by
  intro s a b addr v ha hb
  refine ⟨fun hlt => ⟨s.heap.write addr.toNat v, exec_wmem_of_val ha hb hlt, ?storedCell, ?otherCells⟩, ?pastBound⟩
  case storedCell => exact Memory.read_write_same ..
  case otherCells => exact fun k hk => Memory.read_write_other hk ..
  case pastBound => exact fun hle => exec_wmem_of_memWrite_error ha hb (memWrite_eq_error.mpr ⟨hle, rfl⟩)

end Sys2Proof.Machine

/-! `CALL` and `RET` (48_call_ret.md R140 to R142). -/

namespace Sys2Proof.Machine

/-- A `CALL` whose operand has a value pushes the post-decode address and jumps to the value. -/
theorem exec_call_of_val {s : State} {a t : Word} (ha : val a s = .ok t) :
    exec (.call a) s = .next ((pushWord (s.advance 2).pc (s.advance 2)).jumpTo t) := by
  simp only [exec, execCall, callEffect, ha, except_ok_bind, conclude_ok]

/-- A `RET` on an empty stack halts past its word. -/
theorem exec_ret_of_nil {s : State} (hst : s.stack = []) : exec .ret s = .next (s.advance 1).halt := by
  simp only [exec, execRet, popWord_nil hst]

/-- Settles O31, by the equation of `CALL`. -/
theorem callPushesTheReturnAddress : Obligations.CallPushesTheReturnAddress := fun _ _ _ ha => exec_call_of_val ha

/-- Settles O32, by the two equations of `RET`. -/
theorem retOutcomes : Obligations.RetOutcomes := fun _ => ⟨fun _ _ => exec_ret_of_cons, exec_ret_of_nil⟩

/-- Settles O33: a legal operand has a value, so the `CALL` left its return address on top of the caller's stack. -/
theorem callThenRetResumes : Obligations.CallThenRetResumes := by
  intro s t u a hk hcall hu
  obtain ⟨v, ha⟩ := exists_val_of_kind_ne_invalid hk s
  have hst : t.stack = (s.pc + 2) :: s.stack := by
    cases (callPushesTheReturnAddress s a v ha).symm.trans hcall
    rfl
  exact exec_ret_of_cons (hu.trans hst)

end Sys2Proof.Machine

/-! `OUT` and `IN` (49_io.md R145 to R148). -/

namespace Sys2Proof.Machine

/-- An `OUT` whose operand has a value emits its low byte. -/
theorem exec_out_of_val {s : State} {a v : Word} (ha : val a s = .ok v) :
    exec (.out a) s = .next (emit (lowByte v) (s.advance 2)) := by
  simp only [exec, execOut, outEffect, ha, except_ok_bind, conclude_ok]

/-- The low byte of a word is its number modulo 256. -/
theorem lowByte_eq_ofNat (v : Word) : lowByte v = BitVec.ofNat 8 (v.toNat % 256) := by
  apply BitVec.eq_of_toNat_eq
  simp [lowByte]

/-- A zero-extended byte is the same number. -/
theorem zeroExtend16_eq_ofNat (b : Byte) : zeroExtend16 b = BitVec.ofNat 16 b.toNat := (BitVec.ofNat_toNat 16 b).symm

/-- Settles O34, by the equation of `OUT`. -/
theorem outEmitsTheLowByte : Obligations.OutEmitsTheLowByte := by
  intro s a v ha
  rw [exec_out_of_val ha, lowByte_eq_ofNat]
  rfl

section
variable {s : State} {a : Word} {i : Fin 8}

/-- An `IN` into a register takes the next byte. -/
theorem exec_inb_of_byte {b : Byte} {rest : List Byte} (ha : dst a = .ok i.val) (hin : s.inp = b :: rest) :
    exec (.inb a) s = .next (({ s.advance 2 with inp := rest } : State).setReg i (zeroExtend16 b)) := by
  have hn : nextInput s = some (.ok (b, { s with inp := rest })) := by simp only [nextInput, hin]
  simp only [exec, execInb, ha, hn, writeRegister_fin, conclude_ok]
  rfl

/-- An `IN` into a register faults at the end of the stream. -/
theorem exec_inb_of_end (ha : dst a = .ok i.val) (hin : s.inp = []) (hend : s.inpEnded = true) :
    exec (.inb a) s = .next (takeFault .inputExhausted s) := by
  have hn : nextInput s = some (.error .inputExhausted) := by simp only [nextInput, hin, hend, if_true]
  simp only [exec, execInb, ha, hn, conclude_error]

/-- An `IN` into a register has no step while the host has answered neither a byte nor the end. -/
theorem exec_inb_of_waiting (ha : dst a = .ok i.val) (hin : s.inp = []) (hend : s.inpEnded = false) :
    exec (.inb a) s = .fault .noStepAwaitingInput :=
  exec_eq_fault.mpr ⟨rfl, hin, hend, a, i.val, rfl, ha⟩

end

/-- Settles O35: an answer of the host leaves the run state, the counter and the heap, so the step it lifts runs the same
`IN`, which then meets the byte or the end. -/
theorem inOutcomes : Obligations.InOutcomes := by
  intro s a i ha
  simp only [← zeroExtend16_eq_ofNat]
  refine ⟨fun b rest hin => exec_inb_of_byte ha hin, exec_inb_of_end ha, fun hin hend => ?waiting⟩
  have hwait := exec_inb_of_waiting ha hin hend
  refine ⟨hwait, fun next hr hd => ?_⟩
  have hstop : step s = .fault .noStepAwaitingInput := (stepRunsTheDecodedInstruction s _ next hr hd).trans hwait
  refine ⟨hstop, fun b => ⟨_, hostInput_eq_some.mpr ⟨hstop, rfl⟩, ?byte⟩,
    ⟨_, hostInputEnd_eq_some.mpr ⟨hstop, rfl⟩, ?ended, rfl⟩⟩
  case byte =>
    rw [stepRunsTheDecodedInstruction { s with inp := [b] } _ next hr hd, exec_inb_of_byte ha rfl, ← hin]
    rfl
  case ended =>
    rw [stepRunsTheDecodedInstruction { s with inpEnded := true } _ next hr hd]
    exact exec_inb_of_end ha hin rfl

end Sys2Proof.Machine

/-! Faults: their entry, their codes, that they are precise, and which kinds an instruction can raise (60_exceptions.md). -/

namespace Sys2Proof.Machine

/-- A fault leaves the data alone. -/
theorem sameData_takeFault (e : Trap) (s : State) : s.SameData (takeFault e s) := sameData_takeFaultAt s.pc e s

/-- Settles O36, from the fields of the state that fault entry leaves. -/
theorem faultEntry : Obligations.FaultEntry := fun e s =>
  ⟨takeFault_fault e s, takeFault_runstate e s, sameData_takeFault e s⟩

/-- Settles O37, by evaluating the ten codes. -/
theorem faultCodes : Obligations.FaultCodes := rfl

/-- An instruction that completes in `Running` does not end in `Faulted`. -/
theorem Completes.not_faulted {i : Instr} {s t : State} (h : Completes s i t) (hr : s.runstate = .running) :
    t.runstate ≠ .faulted := by
  rcases h.runstate_frame with hrt | ⟨rfl, -⟩
  · simp [hrt, hr]
  · simp

/-- In `Running` an instruction ends in `Faulted` only by taking a fault of its row of 60_exceptions.md R152. -/
theorem tookFault_of_faulted {i : Instr} {s t : State} (hr : s.runstate = .running) (h : exec i s = .next t)
    (ht : t.runstate = .faulted) : TookFault (effectFaults i) s t :=
  (exec_next_cases h).resolve_right fun hc => hc.not_faulted hr ht

/-- A step that ends in `Faulted` is nothing but the entry of a fault, the decoder's or the instruction's. -/
theorem step_eq_takeFault_of_faulted {s t : State} (h : step s = .next t) (ht : t.runstate = .faulted) :
    s.runstate = .running ∧ ∃ e, t = takeFault e s := by
  obtain ⟨hr, ⟨e, -, rfl⟩ | ⟨i, next, -, hx⟩⟩ := step_next_cases h
  · exact ⟨hr, e, rfl⟩
  · obtain ⟨e, -, -, rfl⟩ := tookFault_of_faulted hr hx ht
    exact ⟨hr, e, rfl⟩

/-- Settles O53: fault entry is at the state in which the step began, and it leaves the data. -/
theorem faultsArePrecise : Obligations.FaultsArePrecise := by
  intro s t h ht
  obtain ⟨hr, e, rfl⟩ := step_eq_takeFault_of_faulted h ht
  exact ⟨hr, sameData_takeFault e s, rfl⟩

/-- Settles O40: the record's kind is that of the fault taken. -/
theorem effectFaultsAreThoseOfTheTable : Obligations.EffectFaultsAreThoseOfTheTable := by
  intro i s t hr h ht
  obtain ⟨e, -, hk, rfl⟩ := tookFault_of_faulted hr h ht
  exact hk

/-! ### Well-formed instructions -/

/-- The fault kinds of an operation's own test, which no check of an operand word raises (60_exceptions.md R152, R156). -/
def ownTestFaults : Instr → List FaultKind
  | .pop _ => [.stackUnderflow]
  | .mod _ _ _ => [.divisionByZero]
  | .rmem _ _ | .wmem _ _ => [.addressOutOfBounds]
  | .inb _ => [.inputExhausted]
  | .halt | .set _ _ | .push _ | .eq _ _ _ | .gt _ _ _ | .jmp _ | .jt _ _ | .jf _ _ | .add _ _ _ | .mult _ _ _
  | .and _ _ _ | .or _ _ _ | .not _ _ | .call _ | .ret | .out _ | .noop => []

/-- A word legal as a destination names a register. -/
theorem exists_dst_of_legal {w : Word} (h : legalDst w = true) : ∃ i : Fin 8, dst w = .ok i.val := by
  obtain ⟨hlo, hhi⟩ : 32768 ≤ w.toNat ∧ w.toNat ≤ 32775 := by simpa [legalDst] using h
  have hlt : w.toNat - 32768 < 8 := by omega
  exact ⟨⟨_, hlt⟩, dst_eq_ok.mpr ⟨hlt, by simp only; omega⟩⟩

/-- A word legal as a value has one. -/
theorem exists_val_of_legal {w : Word} (h : legalVal w = true) (s : State) : ∃ v, val w s = .ok v := by
  have hle : w.toNat ≤ 32775 := by simpa [legalVal] using h
  exact exists_val_of_kind_ne_invalid (fun hk => absurd (kind_eq_invalid.mp hk) (by omega)) s

section
variable {s t : State} {a b c : Word} {ks : List FaultKind} (hch : t.runstate ≠ s.runstate)
include hch

/-- What answers a state with the old run state does not answer one that changed it. -/
theorem ne_next_of_runstate_ne {o : Outcome} {u : State} (hu : o = .next u) (hrt : u.runstate = s.runstate) :
    o ≠ .next t := by
  intro h
  cases hu.symm.trans h
  exact hch hrt

/-- An instruction that completes whenever its one value operand resolves does not change the run state when the operand
is legal. -/
theorem exec_ne_next_of_legal_val {i : Instr} (hwf : legalVal a = true)
    (hi : ∀ v, val a s = .ok v → ∃ u, exec i s = .next u ∧ u.runstate = s.runstate) : exec i s ≠ .next t := by
  obtain ⟨v, ha⟩ := exists_val_of_legal hwf s
  obtain ⟨u, hu, hrt⟩ := hi v ha
  exact ne_next_of_runstate_ne hch hu hrt

/-- A three-word instruction with legal operands changes the run state only by a fault of its function. -/
theorem unary_fault_of_legal {f : Word → Except Trap Word} (hwf : (legalDst a && legalVal b) = true)
    (h : conclude s (unaryEffect f a b s) = .next t) (hf : ∀ vb e, f vb = .error e → e.kind ∈ ks) :
    t.fault.kind ∈ ks := by
  obtain ⟨ha, hb⟩ := Bool.and_eq_true_iff.mp hwf
  obtain ⟨i, ha⟩ := exists_dst_of_legal ha
  obtain ⟨vb, hb⟩ := exists_val_of_legal hb s
  cases hv : f vb with
  | ok v => exact absurd h (ne_next_of_runstate_ne hch (conclude_unaryEffect_of_ok ha hb hv) rfl)
  | error e =>
    cases (conclude_unaryEffect_of_error ha hb hv).symm.trans h
    exact hf vb e hv

/-- A four-word instruction with legal operands changes the run state only by a fault of its function. -/
theorem binary_fault_of_legal {f : Word → Word → Except Trap Word}
    (hwf : (legalDst a && legalVal b && legalVal c) = true) (h : conclude s (binaryEffect f a b c s) = .next t)
    (hf : ∀ vb vc e, f vb vc = .error e → e.kind ∈ ks) : t.fault.kind ∈ ks := by
  obtain ⟨hab, hc⟩ := Bool.and_eq_true_iff.mp hwf
  obtain ⟨ha, hb⟩ := Bool.and_eq_true_iff.mp hab
  obtain ⟨i, ha⟩ := exists_dst_of_legal ha
  obtain ⟨vb, hb⟩ := exists_val_of_legal hb s
  obtain ⟨vc, hc⟩ := exists_val_of_legal hc s
  cases hv : f vb vc with
  | ok v => exact absurd h (ne_next_of_runstate_ne hch (conclude_binaryEffect_of_ok ha hb hc hv) rfl)
  | error e =>
    cases (conclude_binaryEffect_of_error ha hb hc hv).symm.trans h
    exact hf vb vc e hv

/-- A conditional jump with legal operands does not change the run state. -/
theorem condJump_ne_next_of_legal {test : Word → Bool} (hwf : (legalVal a && legalVal b) = true) :
    conclude s (condJumpEffect Config.jtEagerTarget test a b s) ≠ .next t := by
  obtain ⟨ha, hb⟩ := Bool.and_eq_true_iff.mp hwf
  obtain ⟨va, ha⟩ := exists_val_of_legal ha s
  obtain ⟨v, hb⟩ := exists_val_of_legal hb s
  cases htest : test va with
  | true => exact ne_next_of_runstate_ne hch (conclude_condJumpEffect_of_taken ha htest hb) rfl
  | false => exact ne_next_of_runstate_ne hch (conclude_condJumpEffect_of_untaken ha htest) rfl

/-- A `WMEM` with legal operands changes the run state only by the fault of the heap's bound. -/
theorem wmem_fault_of_legal (hwf : (legalVal a && legalVal b) = true) (h : exec (.wmem a b) s = .next t) :
    t.fault.kind = .addressOutOfBounds := by
  obtain ⟨ha, hb⟩ := Bool.and_eq_true_iff.mp hwf
  obtain ⟨addr, ha⟩ := exists_val_of_legal ha s
  obtain ⟨v, hb⟩ := exists_val_of_legal hb s
  obtain hlt | hle := Nat.lt_or_ge addr.toNat 32768
  · exact absurd h (ne_next_of_runstate_ne hch (exec_wmem_of_val ha hb hlt) rfl)
  · cases (exec_wmem_of_memWrite_error ha hb (memWrite_eq_error.mpr ⟨hle, rfl⟩)).symm.trans h
    rfl

/-- A `POP` into a register changes the run state only by the fault of the empty stack. -/
theorem pop_fault_of_legal (hwf : legalDst a = true) (h : exec (.pop a) s = .next t) :
    t.fault.kind = .stackUnderflow := by
  obtain ⟨i, ha⟩ := exists_dst_of_legal hwf
  cases hst : s.stack with
  | nil =>
    cases (exec_pop_of_nil ha hst).symm.trans h
    rfl
  | cons v rest => exact absurd h (ne_next_of_runstate_ne hch (exec_pop_of_cons ha hst) rfl)

/-- An `IN` into a register changes the run state only by the fault of the stream's end. -/
theorem inb_fault_of_legal (hwf : legalDst a = true) (h : exec (.inb a) s = .next t) :
    t.fault.kind = .inputExhausted := by
  obtain ⟨i, ha⟩ := exists_dst_of_legal hwf
  rcases nextInput_cases s with ⟨hin, hend, -⟩ | ⟨hin, hend, -⟩ | ⟨b, rest, hin, -⟩
  · cases (exec_inb_of_waiting ha hin hend).symm.trans h
  · cases (exec_inb_of_end ha hin hend).symm.trans h
    rfl
  · exact absurd h (ne_next_of_runstate_ne hch (exec_inb_of_byte ha hin) rfl)

end

/-- `MOD` raises `DivisionByZero` only. -/
theorem kind_of_aluMod_error {vb vc : Word} {e : Trap} (h : aluMod vb vc = .error e) : e.kind = .divisionByZero := by
  unfold aluMod at h
  split at h <;> cases h
  rfl

/-- `RMEM` raises `AddressOutOfBounds` only. -/
theorem kind_of_memRead_error {addr : Word} {m : Memory} {e : Trap} (h : memRead addr m = .error e) :
    e.kind = .addressOutOfBounds := by
  obtain ⟨-, rfl⟩ := memRead_eq_error.mp h
  rfl

/-- A well-formed instruction faults only by its operation's own test. -/
theorem kind_mem_ownTestFaults {i : Instr} {s t : State} (hwf : i.wellFormed = true) (hr : s.runstate = .running)
    (h : exec i s = .next t) (ht : t.runstate = .faulted) : t.fault.kind ∈ ownTestFaults i := by
  have hch : t.runstate ≠ s.runstate := by simp [hr, ht]
  cases i with
  | halt | ret | noop => exact effectFaultsAreThoseOfTheTable _ s t hr h ht
  | set | not => exact unary_fault_of_legal hch hwf h nofun
  | rmem => exact unary_fault_of_legal hch hwf h fun _ _ he => List.mem_singleton.mpr (kind_of_memRead_error he)
  | eq | gt | add | mult | and | or => exact binary_fault_of_legal hch hwf h nofun
  | mod => exact binary_fault_of_legal hch hwf h fun _ _ _ he => List.mem_singleton.mpr (kind_of_aluMod_error he)
  | jt | jf => exact absurd h (condJump_ne_next_of_legal hch hwf)
  | wmem => exact List.mem_singleton.mpr (wmem_fault_of_legal hch hwf h)
  | pop => exact List.mem_singleton.mpr (pop_fault_of_legal hch hwf h)
  | inb => exact List.mem_singleton.mpr (inb_fault_of_legal hch hwf h)
  | push => exact absurd h (exec_ne_next_of_legal_val hch hwf fun _ ha => ⟨_, exec_push_of_val ha, rfl⟩)
  | jmp => exact absurd h (exec_ne_next_of_legal_val hch hwf fun _ ha => ⟨_, exec_jmp_of_val ha, rfl⟩)
  | call => exact absurd h (exec_ne_next_of_legal_val hch hwf fun _ ha => ⟨_, exec_call_of_val ha, rfl⟩)
  | out => exact absurd h (exec_ne_next_of_legal_val hch hwf fun _ ha => ⟨_, exec_out_of_val ha, rfl⟩)

/-- The own tests raise four kinds between them. -/
theorem ownTestFaults_subset (i : Instr) :
    ownTestFaults i ⊆ [.stackUnderflow, .divisionByZero, .addressOutOfBounds, .inputExhausted] := by
  cases i <;> simp [ownTestFaults]

/-- Settles O41: with legal operands only the operation's own test is left. -/
theorem wellFormedInstructionsFaultOnlyOnTheirOwnTest : Obligations.WellFormedInstructionsFaultOnlyOnTheirOwnTest := by
  intro i s t hwf hr h ht
  simpa using ownTestFaults_subset i (kind_mem_ownTestFaults hwf hr h ht)

end Sys2Proof.Machine

/-! What a reset leaves, the load of an image and the start (70_reset_and_hazards.md). -/

namespace Sys2Proof.Machine

/-- Settles O49: nothing is in the heap, and the record is clear. -/
theorem invAtReset : Obligations.InvAtReset := inv_of_not_faulted rfl nofun rfl

/-- Settles O57, from the fields of the state that the reset leaves. -/
theorem resetValues : Obligations.ResetValues := fun stream ended s =>
  ⟨hostReset stream ended s, rfl, reg_reset, Memory.read_nil, rfl, rfl, rfl, rfl, rfl, rfl, rfl, rfl, rfl, rfl⟩

section
variable {words : List Word} {s : State}

/-- The first load after a reset lays an image that fits. -/
theorem hostLoad_of_fits (hr : s.runstate = .ready) (hl : s.imageLoaded = false) (hw : words.length ≤ 32768) :
    hostLoad words s = some { s with heap := layWords 0 words s.heap, imageLoaded := true } := by
  simp only [hostLoad, hr, hl, Bool.false_eq_true, if_false, if_pos hw]

/-- The first load after a reset faults on an image that does not fit, whatever it has copied. -/
theorem hostLoad_of_long (hr : s.runstate = .ready) (hl : s.imageLoaded = false) (hw : 32768 < words.length) :
    ∃ u, hostLoad words s = some (takeFaultAt 32768 (.addressOutOfBounds 32768) u) := by
  simp only [hostLoad, hr, hl, Bool.false_eq_true, if_false, if_neg (Nat.not_le_of_lt hw)]
  exact ⟨_, rfl⟩

/-- No load is made outside `Ready` or a second time. -/
theorem hostLoad_eq_none (h : s.runstate ≠ .ready ∨ s.imageLoaded = true) : hostLoad words s = none := by
  refine Option.eq_none_iff_forall_ne_some.mpr fun t ht => ?_
  obtain ⟨hr, hl, -⟩ := hostLoad_eq_some ht
  simp [hr, hl] at h

/-- A start in `Ready` only changes the run state. -/
theorem hostStart_of_ready (hr : s.runstate = .ready) : hostStart s = { s with runstate := .running } := by
  simp only [hostStart, hr]

end

/-- Laying words that fit into the empty heap puts word `k` in cell `k` and leaves 0 in the others. -/
theorem layWords_nil_read {words : List Word} (h : words.length ≤ 32768) (k : Nat) :
    (layWords 0 words []).read k = words[k]?.getD 0 := by
  simpa using layWords_read (a := 0) (by omega) [] k

/-- Settles O58: a reset leaves the heap empty, in `Ready` and with no image loaded. -/
theorem loadThenStart : Obligations.LoadThenStart := by
  intro words stream ended before s hw hreset
  cases hreset
  exact ⟨layWords 0 words [], hostLoad_of_fits (s := hostReset stream ended before) rfl rfl hw, layWords_nil_read hw,
    congrArg some (hostStart_of_ready rfl)⟩

/-- Settles O59, from the cases in which a load is made. -/
theorem longImageFaultsAtTheLoad : Obligations.LongImageFaultsAtTheLoad := by
  refine fun words s => ⟨fun hr hl hw => ?_, hostLoad_eq_none⟩
  obtain ⟨u, hload⟩ := hostLoad_of_long hr hl hw
  exact ⟨_, hload, rfl, rfl⟩

end Sys2Proof.Machine
